-- ==== Sys2Proof/Word.lean ====
section
/-! DEFINITION. The word types of the CHIP-8 CORE: bytes, 16-bit words, register indices, immediates. -/

namespace Sys2Proof

/-- A memory cell, a V register or a timer: 8 bits, unsigned (10_state.md R21, R33, R34). -/
abbrev Byte := BitVec 8

/-- An instruction word, I, pc or a stack entry: 16 bits, unsigned (10_state.md R24, R25, R29; 30_encoding.md R100). -/
abbrev Word := BitVec 16

/-- The index of a general register, from a 4-bit field, so never out of range (10_state.md R21). -/
abbrev Reg := Fin 16

/-- The flag register VF, "the last register" (10_state.md R22). -/
abbrev regF : Reg := 15

/-- The 12-bit immediate nnn (30_encoding.md R104). -/
abbrev Imm12 := BitVec 12

/-- The 4-bit sprite height n (30_encoding.md R104). -/
abbrev Nibble := BitVec 4

end Sys2Proof
end

