-- ==== Sys2Proof/Syntax.lean ====
section
/-! DEFINITION. The 35 instructions of 30_encoding.md R120 (spec/opcode_table.json), one constructor a row. -/

namespace Sys2Proof

/-- One constructor per row of the opcode table, with the decoded fields its format names
(30_encoding.md R103, R104, R105). -/
inductive Instr where
  /-- `00E0` CLS, R141. -/
  | cls
  /-- `00EE` RET, R142. -/
  | ret
  /-- `0nnn` SYS nnn, R140. -/
  | sys (nnn : Imm12)
  /-- `1nnn` JP nnn, R143. -/
  | jp (nnn : Imm12)
  /-- `2nnn` CALL nnn, R144. -/
  | call (nnn : Imm12)
  /-- `3xnn` SE Vx, nn, R145. -/
  | seImm (x : Reg) (nn : Byte)
  /-- `4xnn` SNE Vx, nn, R146. -/
  | sneImm (x : Reg) (nn : Byte)
  /-- `5xy0` SE Vx, Vy, R147. -/
  | seReg (x y : Reg)
  /-- `9xy0` SNE Vx, Vy, R148. -/
  | sneReg (x y : Reg)
  /-- `Bnnn` JP V0, nnn, R149. -/
  | jpV0 (nnn : Imm12)
  /-- `6xnn` LD Vx, nn, R170. -/
  | ldImm (x : Reg) (nn : Byte)
  /-- `7xnn` ADD Vx, nn, R171. -/
  | addImm (x : Reg) (nn : Byte)
  /-- `8xy0` LD Vx, Vy, R172. -/
  | ldReg (x y : Reg)
  /-- `8xy1` OR Vx, Vy, R173. -/
  | or (x y : Reg)
  /-- `8xy2` AND Vx, Vy, R174. -/
  | and (x y : Reg)
  /-- `8xy3` XOR Vx, Vy, R175. -/
  | xor (x y : Reg)
  /-- `8xy4` ADD Vx, Vy, R176. -/
  | addReg (x y : Reg)
  /-- `8xy5` SUB Vx, Vy, R177. -/
  | sub (x y : Reg)
  /-- `8xy6` SHR Vx {, Vy}, R178. -/
  | shr (x y : Reg)
  /-- `8xy7` SUBN Vx, Vy, R179. -/
  | subn (x y : Reg)
  /-- `8xyE` SHL Vx {, Vy}, R180. -/
  | shl (x y : Reg)
  /-- `Cxnn` RND Vx, nn, R181. -/
  | rnd (x : Reg) (nn : Byte)
  /-- `Annn` LD I, nnn, R200. -/
  | ldI (nnn : Imm12)
  /-- `Fx1E` ADD I, Vx, R201. -/
  | addI (x : Reg)
  /-- `Fx29` LD F, Vx, R202. -/
  | ldF (x : Reg)
  /-- `Fx33` LD B, Vx, R203. -/
  | ldB (x : Reg)
  /-- `Fx55` LD [I], Vx, R204. -/
  | stRegs (x : Reg)
  /-- `Fx65` LD Vx, [I], R205. -/
  | ldRegs (x : Reg)
  /-- `Dxyn` DRW Vx, Vy, n, R232. -/
  | drw (x y : Reg) (n : Nibble)
  /-- `Ex9E` SKP Vx, R250. -/
  | skp (x : Reg)
  /-- `ExA1` SKNP Vx, R251. -/
  | sknp (x : Reg)
  /-- `Fx0A` LD Vx, K, R253. -/
  | ldK (x : Reg)
  /-- `Fx07` LD Vx, DT, R254. -/
  | ldVxDt (x : Reg)
  /-- `Fx15` LD DT, Vx, R255. -/
  | ldDt (x : Reg)
  /-- `Fx18` LD ST, Vx, R256. -/
  | ldSt (x : Reg)
  deriving DecidableEq, Repr

end Sys2Proof
end

