-- ==== Sys2Proof/WellFormed.lean ====
section
/-! DEFINITION. Which instructions have a word of their own. Field ranges are carried by the field types
(30_encoding.md R104); what is left to check is the one overlap of the table (30_encoding.md R107). -/

namespace Sys2Proof

/-- The nnn of a SYS that is one: 0x0E0 and 0x0EE spell CLS and RET, which take precedence over SYS
(30_encoding.md R107, "most specific literal patterns first"). -/
def sysOperandOk (nnn : Imm12) : Bool :=
  nnn != 0x0E0#12 && nnn != 0x0EE#12

/-- An instruction is well formed when some 16-bit word decodes to it (30_encoding.md R103, R107). -/
def Instr.wf (i : Instr) : Bool :=
  match i with
  | .sys nnn => sysOperandOk nnn
  | .cls => true
  | .ret => true
  | .jp _ => true
  | .call _ => true
  | .seImm _ _ => true
  | .sneImm _ _ => true
  | .seReg _ _ => true
  | .sneReg _ _ => true
  | .jpV0 _ => true
  | .ldImm _ _ => true
  | .addImm _ _ => true
  | .ldReg _ _ => true
  | .or _ _ => true
  | .and _ _ => true
  | .xor _ _ => true
  | .addReg _ _ => true
  | .sub _ _ => true
  | .shr _ _ => true
  | .subn _ _ => true
  | .shl _ _ => true
  | .rnd _ _ => true
  | .ldI _ => true
  | .addI _ => true
  | .ldF _ => true
  | .ldB _ => true
  | .stRegs _ => true
  | .ldRegs _ => true
  | .drw _ _ _ => true
  | .skp _ => true
  | .sknp _ => true
  | .ldK _ => true
  | .ldVxDt _ => true
  | .ldDt _ => true
  | .ldSt _ => true

end Sys2Proof
end

