-- ==== Sys2Proof/Decode.lean ====
section
/-! DEFINITION. The instruction_decoder (30_encoding.md R102 to R113), the opcode table of R120 as rows, and the
encoder of R103. The opcode values other than 00E0, 1nnn, 3xnn and 6xnn are general knowledge in the spec's own
words (93_implementation_defined.md G2, G3): log 8. -/

namespace Sys2Proof

/-- The five decoded fields; "the decoder outputs all five for every word" (30_encoding.md R104). -/
structure Fields where
  x : Reg
  y : Reg
  n : Nibble
  nn : Byte
  nnn : Imm12
  deriving DecidableEq, Repr

/-- Field extraction (30_encoding.md R104): x = w[11:8], y = w[7:4], n = w[3:0], nn = w[7:0], nnn = w[11:0]. -/
def fields (w : Word) : Fields where
  x := (w.extractLsb' 8 4).toFin
  y := (w.extractLsb' 4 4).toFin
  n := w.extractLsb' 0 4
  nn := w.extractLsb' 0 8
  nnn := w.extractLsb' 0 12

/-- The class nibble w[15:12] (30_encoding.md R102). -/
def classNibble (w : Word) : Nibble :=
  w.extractLsb' 12 4

/-- The 8XY_ group, selected by w[3:0] (30_encoding.md R109). -/
def decodeAlu (f : Fields) : Option Instr :=
  match f.n.toNat with
  | 0x0 => some (.ldReg f.x f.y)
  | 0x1 => some (.or f.x f.y)
  | 0x2 => some (.and f.x f.y)
  | 0x3 => some (.xor f.x f.y)
  | 0x4 => some (.addReg f.x f.y)
  | 0x5 => some (.sub f.x f.y)
  | 0x6 => some (.shr f.x f.y)
  | 0x7 => some (.subn f.x f.y)
  | 0xE => some (.shl f.x f.y)
  | _ => none

/-- The EX__ group, selected by w[7:0] (30_encoding.md R110). -/
def decodeKeys (f : Fields) : Option Instr :=
  match f.nn.toNat with
  | 0x9E => some (.skp f.x)
  | 0xA1 => some (.sknp f.x)
  | _ => none

/-- The FX__ group, selected by w[7:0] (30_encoding.md R110). -/
def decodeMisc (f : Fields) : Option Instr :=
  match f.nn.toNat with
  | 0x07 => some (.ldVxDt f.x)
  | 0x0A => some (.ldK f.x)
  | 0x15 => some (.ldDt f.x)
  | 0x18 => some (.ldSt f.x)
  | 0x1E => some (.addI f.x)
  | 0x29 => some (.ldF f.x)
  | 0x33 => some (.ldB f.x)
  | 0x55 => some (.stRegs f.x)
  | 0x65 => some (.ldRegs f.x)
  | _ => none

/-- 5XY0 and 9XY0 need w[3:0] = 0 (30_encoding.md R108). -/
def decodeIfZero (f : Fields) (i : Instr) : Option Instr :=
  if f.n = 0#4 then some i else none

/-- The opcode map by class nibble, but for the two words CLS and RET (30_encoding.md R108); `none` is UNKNOWN (R112). -/
def decodeClass (c : Nibble) (f : Fields) : Option Instr :=
  match c.toNat with
  | 0x0 => some (.sys f.nnn)
  | 0x1 => some (.jp f.nnn)
  | 0x2 => some (.call f.nnn)
  | 0x3 => some (.seImm f.x f.nn)
  | 0x4 => some (.sneImm f.x f.nn)
  | 0x5 => decodeIfZero f (.seReg f.x f.y)
  | 0x6 => some (.ldImm f.x f.nn)
  | 0x7 => some (.addImm f.x f.nn)
  | 0x8 => decodeAlu f
  | 0x9 => decodeIfZero f (.sneReg f.x f.y)
  | 0xA => some (.ldI f.nnn)
  | 0xB => some (.jpV0 f.nnn)
  | 0xC => some (.rnd f.x f.nn)
  | 0xD => some (.drw f.x f.y f.n)
  | 0xE => decodeKeys f
  | 0xF => decodeMisc f
  | _ => none

/-- CLS and RET come before SYS, "most specific literal patterns first" (30_encoding.md R107); then the opcode map. -/
def decodeOp (w : Word) : Option Instr :=
  if w = 0x00E0#16 then some .cls
  else if w = 0x00EE#16 then some .ret
  else decodeClass (classNibble w) (fields w)

/-- Why bytes give no instruction. -/
inductive DecodeError where
  /-- No pattern matches the word: UNKNOWN (30_encoding.md R111, R112). A step on it completes and reports it. -/
  | unknownOpcode (w : Word)
  /-- Fewer than two bytes: every instruction has two (30_encoding.md R100). No step sees this; a fetch that cannot
  read both bytes raises MEM_FETCH (30_encoding.md R101). -/
  | truncated
  deriving DecidableEq, Repr

/-- The decoder: "a pure function of the fetched 16-bit word" (10_state.md R43, 30_encoding.md R113). -/
def decode (w : Word) : Except DecodeError Instr :=
  match decodeOp w with
  | some i => .ok i
  | none => .error (.unknownOpcode w)

/-- An instruction word is big-endian: w[15:8] is the byte at the lower address (30_encoding.md R101, 20_memory.md R75). -/
def wordOfBytes (hi lo : Byte) : Word :=
  hi ++ lo

/-- The two bytes of a word in memory order (20_memory.md R75). -/
def bytesOfWord (w : Word) : List Byte :=
  [w.extractLsb' 8 8, w.extractLsb' 0 8]

/-- Decoding of bytes: the first two are the instruction, the rest is left over (30_encoding.md R100). -/
def decodeBytes : List Byte → Except DecodeError (Instr × List Byte)
  | hi :: lo :: rest =>
    match decode (wordOfBytes hi lo) with
    | .ok i => .ok (i, rest)
    | .error e => .error e
  | _ => .error .truncated

/-- The bytes of the instruction whose table bits are the low `nbits` bits of `w`, the bits above them zero. -/
def tableBytes (nbits w : Nat) : List Byte :=
  bytesOfWord (BitVec.ofNat 16 (w % 2 ^ nbits))

/-- What this decoder reads from the instruction whose bits are `w`, numbered as the opcode table numbers them. -/
def decodeTableWord (nbits w : Nat) : Option Instr :=
  match decodeBytes (tableBytes nbits w) with
  | .ok (i, _) => some i
  | .error _ => none

/-! The encoder, written from the formats of 30_encoding.md R103 and the patterns of R120. -/

/-- Format NNN. -/
def encNNN (c : Nibble) (nnn : Imm12) : Word :=
  c ++ nnn

/-- Format XNN, and format X with the literal byte as nn. -/
def encXNN (c : Nibble) (x : Reg) (nn : Byte) : Word :=
  c ++ (BitVec.ofFin x : Nibble) ++ nn

/-- Format XYN, and format XY with the literal function nibble as n. -/
def encXYN (c : Nibble) (x y : Reg) (n : Nibble) : Word :=
  c ++ (BitVec.ofFin x : Nibble) ++ (BitVec.ofFin y : Nibble) ++ n

/-- The word of an instruction (30_encoding.md R103, R120). -/
def encode (i : Instr) : Word :=
  match i with
  | .cls => 0x00E0#16
  | .ret => 0x00EE#16
  | .sys nnn => encNNN 0x0#4 nnn
  | .jp nnn => encNNN 0x1#4 nnn
  | .call nnn => encNNN 0x2#4 nnn
  | .seImm x nn => encXNN 0x3#4 x nn
  | .sneImm x nn => encXNN 0x4#4 x nn
  | .seReg x y => encXYN 0x5#4 x y 0x0#4
  | .sneReg x y => encXYN 0x9#4 x y 0x0#4
  | .jpV0 nnn => encNNN 0xB#4 nnn
  | .ldImm x nn => encXNN 0x6#4 x nn
  | .addImm x nn => encXNN 0x7#4 x nn
  | .ldReg x y => encXYN 0x8#4 x y 0x0#4
  | .or x y => encXYN 0x8#4 x y 0x1#4
  | .and x y => encXYN 0x8#4 x y 0x2#4
  | .xor x y => encXYN 0x8#4 x y 0x3#4
  | .addReg x y => encXYN 0x8#4 x y 0x4#4
  | .sub x y => encXYN 0x8#4 x y 0x5#4
  | .shr x y => encXYN 0x8#4 x y 0x6#4
  | .subn x y => encXYN 0x8#4 x y 0x7#4
  | .shl x y => encXYN 0x8#4 x y 0xE#4
  | .rnd x nn => encXNN 0xC#4 x nn
  | .ldI nnn => encNNN 0xA#4 nnn
  | .addI x => encXNN 0xF#4 x 0x1E#8
  | .ldF x => encXNN 0xF#4 x 0x29#8
  | .ldB x => encXNN 0xF#4 x 0x33#8
  | .stRegs x => encXNN 0xF#4 x 0x55#8
  | .ldRegs x => encXNN 0xF#4 x 0x65#8
  | .drw x y n => encXYN 0xD#4 x y n
  | .skp x => encXNN 0xE#4 x 0x9E#8
  | .sknp x => encXNN 0xE#4 x 0xA1#8
  | .ldK x => encXNN 0xF#4 x 0x0A#8
  | .ldVxDt x => encXNN 0xF#4 x 0x07#8
  | .ldDt x => encXNN 0xF#4 x 0x15#8
  | .ldSt x => encXNN 0xF#4 x 0x18#8

/-- The bytes of an instruction in memory order. -/
def encodeBytes (i : Instr) : List Byte :=
  bytesOfWord (encode i)

/-! The opcode table of 30_encoding.md R120 as data, and the selection rule of R107 over it. -/

/-- One row of the table: mask, match, priority, and the instruction its fields make. -/
structure TableRow where
  mask : Word
  pattern : Word
  prio : Nat
  build : Fields → Instr

/-- A row matches a word when `(w AND mask) = match` (30_encoding.md R107). -/
def TableRow.fits (r : TableRow) (w : Word) : Bool :=
  w &&& r.mask == r.pattern

/-- Rows 1 to 10 of R120: control/flow. -/
def controlRows : List TableRow := [
  ⟨0xFFFF#16, 0x00E0#16, 1, fun _ => .cls⟩,
  ⟨0xFFFF#16, 0x00EE#16, 1, fun _ => .ret⟩,
  ⟨0xF000#16, 0x0000#16, 2, fun f => .sys f.nnn⟩,
  ⟨0xF000#16, 0x1000#16, 3, fun f => .jp f.nnn⟩,
  ⟨0xF000#16, 0x2000#16, 3, fun f => .call f.nnn⟩,
  ⟨0xF000#16, 0x3000#16, 3, fun f => .seImm f.x f.nn⟩,
  ⟨0xF000#16, 0x4000#16, 3, fun f => .sneImm f.x f.nn⟩,
  ⟨0xF00F#16, 0x5000#16, 3, fun f => .seReg f.x f.y⟩,
  ⟨0xF00F#16, 0x9000#16, 3, fun f => .sneReg f.x f.y⟩,
  ⟨0xF000#16, 0xB000#16, 3, fun f => .jpV0 f.nnn⟩]

/-- Rows 11 to 22 of R120: register/immediate. -/
def aluRows : List TableRow := [
  ⟨0xF000#16, 0x6000#16, 3, fun f => .ldImm f.x f.nn⟩,
  ⟨0xF000#16, 0x7000#16, 3, fun f => .addImm f.x f.nn⟩,
  ⟨0xF00F#16, 0x8000#16, 3, fun f => .ldReg f.x f.y⟩,
  ⟨0xF00F#16, 0x8001#16, 3, fun f => .or f.x f.y⟩,
  ⟨0xF00F#16, 0x8002#16, 3, fun f => .and f.x f.y⟩,
  ⟨0xF00F#16, 0x8003#16, 3, fun f => .xor f.x f.y⟩,
  ⟨0xF00F#16, 0x8004#16, 3, fun f => .addReg f.x f.y⟩,
  ⟨0xF00F#16, 0x8005#16, 3, fun f => .sub f.x f.y⟩,
  ⟨0xF00F#16, 0x8006#16, 3, fun f => .shr f.x f.y⟩,
  ⟨0xF00F#16, 0x8007#16, 3, fun f => .subn f.x f.y⟩,
  ⟨0xF00F#16, 0x800E#16, 3, fun f => .shl f.x f.y⟩,
  ⟨0xF000#16, 0xC000#16, 3, fun f => .rnd f.x f.nn⟩]

/-- Rows 23 to 35 of R120: memory/index, drawing, input. -/
def memoryRows : List TableRow := [
  ⟨0xF000#16, 0xA000#16, 3, fun f => .ldI f.nnn⟩,
  ⟨0xF0FF#16, 0xF01E#16, 3, fun f => .addI f.x⟩,
  ⟨0xF0FF#16, 0xF029#16, 3, fun f => .ldF f.x⟩,
  ⟨0xF0FF#16, 0xF033#16, 3, fun f => .ldB f.x⟩,
  ⟨0xF0FF#16, 0xF055#16, 3, fun f => .stRegs f.x⟩,
  ⟨0xF0FF#16, 0xF065#16, 3, fun f => .ldRegs f.x⟩,
  ⟨0xF000#16, 0xD000#16, 3, fun f => .drw f.x f.y f.n⟩,
  ⟨0xF0FF#16, 0xE09E#16, 3, fun f => .skp f.x⟩,
  ⟨0xF0FF#16, 0xE0A1#16, 3, fun f => .sknp f.x⟩,
  ⟨0xF0FF#16, 0xF00A#16, 3, fun f => .ldK f.x⟩,
  ⟨0xF0FF#16, 0xF007#16, 3, fun f => .ldVxDt f.x⟩,
  ⟨0xF0FF#16, 0xF015#16, 3, fun f => .ldDt f.x⟩,
  ⟨0xF0FF#16, 0xF018#16, 3, fun f => .ldSt f.x⟩]

/-- The 35 rows of 30_encoding.md R120. -/
def opcodeTable : List TableRow :=
  controlRows ++ aluRows ++ memoryRows

/-- Of two matching rows the one with the smaller priority number (30_encoding.md R107). -/
def betterRow (best : Option TableRow) (r : TableRow) : Option TableRow :=
  match best with
  | none => some r
  | some b => if r.prio < b.prio then some r else some b

/-- R107: "a word selects the row of rule R120 with the smallest priority number whose (w AND mask) = match". -/
def selectRow (w : Word) : Option TableRow :=
  (opcodeTable.filter (fun r => r.fits w)).foldl betterRow none

/-- Decoding by the table. -/
def tableDecode (w : Word) : Option Instr :=
  (selectRow w).map (fun r => r.build (fields w))

end Sys2Proof
end

