-- ==== Sys2Proof/Config.lean ====
section
/-! DEFINITION. What the spec leaves to an implementation: the configuration parameters of 00_scope.md R8
as types, the OPEN parameter SHIFT_SRC and the free values, each an uninterpreted constant.
The values this hardware gives DRAW_WRAP, TIMER_TICK and FONT are in Sys2Proof/Machine/Params.lean. -/

namespace Sys2Proof

/-- SHIFT_SRC: which register 8xy6 and 8xyE shift (00_scope.md R8, D14). -/
inductive ShiftSrc where
  | vx
  | vy
  deriving DecidableEq, Repr, Inhabited

/-- DRAW_WRAP: how a sprite's cells wrap (00_scope.md R8, 43_draw.md R230, D16). -/
inductive DrawWrap where
  | flat
  | perAxis
  deriving DecidableEq, Repr, Inhabited

/-- TIMER_TICK: what makes the timers tick (00_scope.md R8, 10_state.md R57, D23). -/
inductive TimerTick where
  | perStep
  | external
  deriving DecidableEq, Repr, Inhabited

/-- SHIFT_SRC is OPEN (D14): nothing constrains it, so every theorem holds for both values. Log 4. -/
opaque Config.shiftSrc : ShiftSrc

/-- The free 8-bit input `rand`, "drawn at each RND, under no law" (41_register_alu.md R181, D25);
the argument is the state's count of draws. Log 1. -/
opaque Config.rand : Nat → Byte

/-! The state after a fault is unspecified but for `faulted` and the fault record (60_exceptions.md R289,
93_implementation_defined.md U6): a free value for each other piece of state, drawn by the state's count. Log 2. -/

/-- V[0..15] after a fault. -/
opaque Config.faultV : Nat → Vector Byte 16
/-- I after a fault. -/
opaque Config.faultI : Nat → Word
/-- pc after a fault. -/
opaque Config.faultedPc : Nat → Word
/-- S[0..15] after a fault. -/
opaque Config.faultS : Nat → Vector Word 16
/-- sp after a fault: still a count in 0..16 (10_state.md R29). -/
opaque Config.faultSp : Nat → Fin 17
/-- DT after a fault. -/
opaque Config.faultDT : Nat → Byte
/-- ST after a fault. -/
opaque Config.faultST : Nat → Byte
/-- key[0..15] after a fault. -/
opaque Config.faultKey : Nat → Vector Bool 16
/-- FB[0..2047] after a fault, as 32 rows of 64 cells. -/
opaque Config.faultFB : Nat → Vector (BitVec 64) 32
/-- dirty after a fault. -/
opaque Config.faultDirty : Nat → Bool
/-- loaded after a fault. -/
opaque Config.faultLoaded : Nat → Bool
/-- The byte at each address after a fault (count of draws, address). -/
opaque Config.faultMem : Nat → Nat → Byte

end Sys2Proof
end

