-- ==== Sys2Proof/Machine/Params.lean ====
section
/-! DEFINITION. The fixed and configuration parameters of 00_scope.md R7 and R8 with this hardware's values. -/

namespace Sys2Proof.Machine

/-- MEM_SIZE (00_scope.md R7): addresses [0, 4096). -/
def memSize : Nat := 4096

/-- The glyph region is [0, 80) (00_scope.md R7, 20_memory.md R71). -/
def glyphEnd : Nat := 80

/-- GLYPH_STRIDE (00_scope.md R7, 42_memory_index.md R202). -/
def glyphStride : Nat := 5

/-- PROG_BASE, the reset pc (00_scope.md R7). -/
def progBase : Nat := 0x200

/-- PROG_MAX = 4096 - 0x200 (00_scope.md R7, 10_state.md R53). -/
def progMax : Nat := 3584

/-- STACK_DEPTH (00_scope.md R7, 10_state.md R29). -/
def stackDepth : Nat := 16

/-- DRAW_WRAP of this hardware (00_scope.md R8, D16). Log 5. -/
def drawWrap : DrawWrap := .flat

/-- TIMER_TICK of this hardware (00_scope.md R8, D23). Log 6. -/
def timerTick : TimerTick := .perStep

/-- FONT: the 16 glyphs of 10_state.md R33, five rows each, top row first. Log 7. -/
def fontTable : List Byte :=
  [0xF0#8, 0x90#8, 0x90#8, 0x90#8, 0xF0#8] ++
  [0x20#8, 0x60#8, 0x20#8, 0x20#8, 0x70#8] ++
  [0xF0#8, 0x10#8, 0xF0#8, 0x80#8, 0xF0#8] ++
  [0xF0#8, 0x10#8, 0xF0#8, 0x10#8, 0xF0#8] ++
  [0x90#8, 0x90#8, 0xF0#8, 0x10#8, 0x10#8] ++
  [0xF0#8, 0x80#8, 0xF0#8, 0x10#8, 0xF0#8] ++
  [0xF0#8, 0x80#8, 0xF0#8, 0x90#8, 0xF0#8] ++
  [0xF0#8, 0x10#8, 0x20#8, 0x40#8, 0x40#8] ++
  [0xF0#8, 0x90#8, 0xF0#8, 0x90#8, 0xF0#8] ++
  [0xF0#8, 0x90#8, 0xF0#8, 0x10#8, 0xF0#8] ++
  [0xF0#8, 0x90#8, 0xF0#8, 0x90#8, 0x90#8] ++
  [0xE0#8, 0x90#8, 0xE0#8, 0x90#8, 0xE0#8] ++
  [0xF0#8, 0x80#8, 0x80#8, 0x80#8, 0xF0#8] ++
  [0xE0#8, 0x90#8, 0x90#8, 0x90#8, 0xE0#8] ++
  [0xF0#8, 0x80#8, 0xF0#8, 0x80#8, 0xF0#8] ++
  [0xF0#8, 0x80#8, 0xF0#8, 0x80#8, 0x80#8]

end Sys2Proof.Machine
end

