-- ==== Sys2Proof/Machine/Framebuffer.lean ====
section
/-! DEFINITION. The framebuffer's cells (10_state.md R37, R38; 43_draw.md R234). The 2048 cells FB[0..2047] are held
row by row: cell (x, y) is FB[y*64 + x], bit x of row y. Log 12. -/

namespace Sys2Proof.Machine

/-- FB[0..2047]: 32 rows of 64 one-bit cells (10_state.md R37). -/
abbrev Framebuffer := Vector (BitVec 64) 32

/-- Every cell 0. -/
def Framebuffer.blank : Framebuffer :=
  Vector.replicate 32 0#64

/-- FB[k] (10_state.md R37); there are 2048 cells. -/
def Framebuffer.cell (fb : Framebuffer) (k : Nat) : Bool :=
  if h : k / 64 < 32 then fb[k / 64].getLsbD (k % 64) else false

/-- FB[k] <- FB[k] XOR 1 (43_draw.md R234). -/
def Framebuffer.toggle (fb : Framebuffer) (k : Nat) : Framebuffer :=
  if h : k / 64 < 32 then fb.set (k / 64) (fb[k / 64] ^^^ BitVec.twoPow 64 (k % 64)) else fb

/-- PixelIndex(px, py) (43_draw.md R230). -/
def pixelIndex (wrap : DrawWrap) (px py : Nat) : Nat :=
  match wrap with
  | .flat => (py * 64 + px) % 2048
  | .perAxis => py % 32 * 64 + px % 64

/-- The copy the host is given: the 2048 cells in the order of 10_state.md R37 (10_state.md R54, D38). -/
def Framebuffer.view (fb : Framebuffer) : List Bool :=
  (List.range 2048).map (fun k => fb.cell k)

end Sys2Proof.Machine
end

