-- ==== Sys2Proof/Machine/Memory.lean ====
section
/-! DEFINITION. Memory as plain data: the cells whose byte differs from the construction contents, addresses
strictly rising (20_memory.md R70, R71; 10_state.md R33). The bounds-checked accessors are in Ops.lean. Log 13. -/

namespace Sys2Proof.Machine

/-- The cells that differ from the construction contents. -/
abbrev Memory := List Host.Cell

/-- What an unlisted address reads as: the construction contents, FONT at [0, 80) and zero elsewhere (10_state.md R33). -/
def Memory.initial (a : Nat) : Byte :=
  fontTable.getD a 0#8

/-- The canonical form: addresses strictly rising, inside memory, no entry equal to the construction byte. -/
abbrev Memory.wf (m : Memory) : Prop :=
  m.Pairwise (fun p q => p.1 < q.1) ∧ ∀ p ∈ m, p.1 < memSize ∧ p.2 ≠ Memory.initial p.1

/-- The byte at an address, without the bounds check. -/
def Memory.get (m : Memory) (a : Nat) : Byte :=
  match m with
  | [] => Memory.initial a
  | (b, v) :: rest => if a = b then v else Memory.get rest a

/-- Put a cell in its place, replacing one at the same address. -/
def Memory.insertCell (m : Memory) (a : Nat) (v : Byte) : Memory :=
  match m with
  | [] => [(a, v)]
  | (b, u) :: rest =>
    if a < b then (a, v) :: (b, u) :: rest
    else if a = b then (a, v) :: rest
    else (b, u) :: Memory.insertCell rest a v

/-- Take away the cell at an address, so that it reads as at construction. -/
def Memory.eraseCell (m : Memory) (a : Nat) : Memory :=
  match m with
  | [] => []
  | (b, u) :: rest => if a = b then rest else (b, u) :: Memory.eraseCell rest a

/-- Write one byte, without the bounds check; "writes change only the addressed byte" (20_memory.md R78). -/
def Memory.set (m : Memory) (a : Nat) (v : Byte) : Memory :=
  if v = Memory.initial a then m.eraseCell a else m.insertCell a v

/-- Write bytes at rising addresses, without the bounds check (the host's `load`, 10_state.md R53). -/
def Memory.setAll (m : Memory) (a : Nat) (bytes : List Byte) : Memory :=
  match bytes with
  | [] => m
  | b :: rest => Memory.setAll (m.set a b) (a + 1) rest

/-- The memory whose byte at each address is given by `f`. Irreducible, so that no proof runs over 4096 addresses. -/
@[irreducible] def Memory.ofFn (f : Nat → Byte) : Memory :=
  (List.range memSize).filterMap
    (fun a => if f a = Memory.initial a then none else some (a, f a))

end Sys2Proof.Machine
end

