-- ==== Sys2Proof/Machine/State.lean ====
section
/-! DEFINITION. The architectural state (10_state.md R20 to R41), the reasons a step can stop, and the state after
construction (70_reset_and_hazards.md R321). -/

namespace Sys2Proof.Machine

/-- The six spaces of an OutOfBounds fault (60_exceptions.md R282). -/
inductive FaultSpace where
  /-- The fetch at pc or pc + 1 is outside memory. -/
  | memFetch
  /-- DRW or LD Vx,[I] reads outside memory. -/
  | memRead
  /-- LD B,Vx or LD [I],Vx writes outside memory or into the glyphs. -/
  | memWrite
  /-- CALL at sp = 16. -/
  | stackOverflow
  /-- RET at sp = 0. -/
  | stackUnderflow
  /-- SKP or SKNP with V[x] >= 16. -/
  | keyIndex
  deriving DecidableEq, Repr

/-- `raise OutOfBounds(space, value)` (00_scope.md R10): what the fault entry of Ops.lean records. -/
structure Raise where
  space : FaultSpace
  value : Nat
  deriving DecidableEq, Repr

/-- Why a step stops with the outcome `fault`: never on this machine. An OutOfBounds fault is an effect the spec
describes (60_exceptions.md R289: `faulted` is set, the record is written, the rest is unspecified), so it is a next
state (Ops.lean `enterFault`), and the steps after it are refused (10_state.md R51). Log 3. -/
inductive Fault where
  deriving DecidableEq, Repr

/-- Why a step is refused. -/
inductive Refusal where
  /-- An arm of exec whose instruction has no meaning yet; no arm is one. Safe. -/
  | notModelled (mnemonic : String)
  /-- REFUSED_FAULTED, raised by step when `faulted` = 1 (10_state.md R51). The spec's own result, no state change. Safe. -/
  | faulted
  /-- REFUSED_NOT_LOADED, raised by step when `loaded` = 0 (10_state.md R52). The spec's own result, no state change.
  Safe. -/
  | notLoaded
  deriving DecidableEq, Repr

/-- All the state the spec gives the machine (10_state.md R20, R40), and the model's own count of free values. -/
structure State where
  /-- V0..VF (R21); VF is `V[15]` (R22). -/
  V : Vector Byte 16
  /-- The index register (R24). -/
  I : Word
  /-- The program counter (R25). -/
  pc : Word
  /-- The 16 stack entries (R29). -/
  S : Vector Word 16
  /-- The number of stack entries in use, 0..16 (R29, C1). -/
  sp : Fin 17
  /-- The delay timer (R34). -/
  DT : Byte
  /-- The sound timer (R34). -/
  ST : Byte
  /-- The 16 key flags (R36). -/
  key : Vector Bool 16
  /-- The framebuffer (R37). -/
  FB : Framebuffer
  /-- The "dirty since last read" flag (R37). -/
  dirty : Bool
  /-- The 4096 bytes of memory (R33). -/
  mem : Memory
  /-- A program image was accepted (R39). -/
  loaded : Bool
  /-- A fatal fault ended a step (R39). -/
  faulted : Bool
  /-- The fault record: its space (R39, 60_exceptions.md R286). -/
  faultSpace : FaultSpace
  /-- The fault record: its value, 17 bits (R39). -/
  faultValue : BitVec 17
  /-- The fault record: the pc of the step that faulted (R39). -/
  faultPc : Word
  /-- The model's own: how many free values have been drawn (log 1). -/
  draws : Nat
  deriving DecidableEq, Repr

/-- The state after construction (70_reset_and_hazards.md R321). The fault record is unspecified there while
`faulted` = 0: MEM_FETCH, 0 and 0 are a DESIGN CHOICE (log 10), and so is `draws` = 0 (log 1). -/
def State.reset : State where
  V := Vector.replicate 16 0#8
  I := 0#16
  pc := BitVec.ofNat 16 progBase
  S := Vector.replicate 16 0#16
  sp := 0
  DT := 0#8
  ST := 0#8
  key := Vector.replicate 16 false
  FB := Framebuffer.blank
  dirty := false
  mem := []
  loaded := false
  faulted := false
  faultSpace := .memFetch
  faultValue := 0#17
  faultPc := 0#16
  draws := 0

end Sys2Proof.Machine
end

