-- ==== Sys2Proof/Machine/Ops.lean ====
section
/-! DEFINITION. The named operations over registers, pc, stack, memory, framebuffer and timers, the fetch, the one
fault entry, and the end of a step. Every meaning is written over these. -/

namespace Sys2Proof.Machine

/-! Registers (10_state.md R21 to R24). -/

/-- V[x]. -/
def State.v (s : State) (x : Reg) : Byte :=
  s.V[x.val]

/-- V[x] <- b. -/
def State.setV (s : State) (x : Reg) (b : Byte) : State :=
  { s with V := s.V.set x.val b }

/-- I <- a. -/
def State.setI (s : State) (a : Word) : State :=
  { s with I := a }

/-- V[0..k-1] <- the k bytes given, from V0 up (42_memory_index.md R205); the others are unchanged. -/
def State.setLowV (s : State) (bytes : List Byte) : State :=
  { s with V := Vector.ofFn (fun i : Fin 16 => bytes.getD i.val (s.v i)) }

/-! The program counter (10_state.md R25, R26, R28). -/

/-- The next-pc sources (10_state.md R26). -/
inductive PcSel where
  | hold
  | inc2
  | inc4
  | abs (nnn : Imm12)
  | absV0 (nnn : Imm12)
  | ret (entry : Word)
  deriving DecidableEq, Repr

/-- The value of each source (10_state.md R26): 16-bit addition, no mask to 12 bits. -/
def nextPc (s : State) (sel : PcSel) : Word :=
  match sel with
  | .hold => s.pc
  | .inc2 => s.pc + 2#16
  | .inc4 => s.pc + 4#16
  | .abs nnn => nnn.zeroExtend 16
  | .absV0 nnn => nnn.zeroExtend 16 + (s.v 0).zeroExtend 16
  | .ret entry => entry + 2#16

/-- Apply one next-pc source; a completed instruction applies exactly one (10_state.md R28). -/
def State.goto (s : State) (sel : PcSel) : State :=
  { s with pc := nextPc s sel }

/-- A skip: pc + 4 when the condition holds, else pc + 2 (40_control_flow.md R150). -/
def State.skipIf (s : State) (c : Bool) : State :=
  s.goto (if c then .inc4 else .inc2)

/-! The call stack (10_state.md R29 to R31). -/

/-- Push(v) (10_state.md R30). -/
def push (s : State) (v : Word) : Except Raise State :=
  if h : s.sp.val < stackDepth then
    .ok { s with S := s.S.set s.sp.val v (by simpa [stackDepth] using h),
                 sp := ⟨s.sp.val + 1, by simp only [stackDepth] at h; omega⟩ }
  else .error ⟨.stackOverflow, s.sp.val⟩

/-- Pop() (10_state.md R30): the entry is read and not cleared (R31). -/
def pop (s : State) : Except Raise (Word × State) :=
  if h : s.sp.val = 0 then .error ⟨.stackUnderflow, s.sp.val⟩
  else .ok (s.S[s.sp.val - 1]'(by omega), { s with sp := ⟨s.sp.val - 1, by omega⟩ })

/-! Memory (20_memory.md R72 to R76). Addresses are natural numbers: no wrap, no mask (R74). -/

/-- MemRead(addr, 1) (20_memory.md R72). -/
def memRead (m : Memory) (space : FaultSpace) (a : Nat) : Except Raise Byte :=
  if a < memSize then .ok (m.get a) else .error ⟨space, a⟩

/-- MemWrite(addr, 1, v) (20_memory.md R73): outside memory and in the glyphs it raises. -/
def memWrite (m : Memory) (a : Nat) (v : Byte) : Except Raise Memory :=
  if memSize ≤ a then .error ⟨.memWrite, a⟩
  else if a < glyphEnd then .error ⟨.memWrite, a⟩
  else .ok (m.set a v)

/-- `count` one-byte reads at rising addresses; the first that fails decides (20_memory.md R76, 60_exceptions.md R288). -/
def readSpan (m : Memory) (space : FaultSpace) (a count : Nat) : Except Raise (List Byte) :=
  match count with
  | 0 => .ok []
  | k + 1 =>
    match memRead m space a with
    | .error r => .error r
    | .ok b =>
      match readSpan m space (a + 1) k with
      | .error r => .error r
      | .ok bs => .ok (b :: bs)

/-- One-byte writes at rising addresses; the first that fails decides (20_memory.md R76, 60_exceptions.md R288). -/
def writeSpan (m : Memory) (a : Nat) (bytes : List Byte) : Except Raise Memory :=
  match bytes with
  | [] => .ok m
  | b :: bs =>
    match memWrite m a b with
    | .error r => .error r
    | .ok m' => writeSpan m' (a + 1) bs

/-- Bytes read from I up (42_memory_index.md R205, 43_draw.md R232). -/
def loadAtI (s : State) (count : Nat) : Except Raise (List Byte) :=
  readSpan s.mem .memRead s.I.toNat count

/-- Bytes written from I up (42_memory_index.md R203, R204); I is unchanged. -/
def storeAtI (s : State) (bytes : List Byte) : Except Raise State :=
  match writeSpan s.mem s.I.toNat bytes with
  | .error r => .error r
  | .ok m => .ok { s with mem := m }

/-! The framebuffer_writer (43_draw.md R234). -/

/-- Clear(). -/
def clearScreen (s : State) : State :=
  { s with FB := Framebuffer.blank, dirty := true }

/-- Xor(k) over a list of cells: the framebuffer after all toggles, and whether some toggled cell was 1 before its
toggle (`was_set`). -/
def xorCells (fb : Framebuffer) (cells : List Nat) : Framebuffer × Bool :=
  match cells with
  | [] => (fb, false)
  | k :: ks =>
    let rest := xorCells (fb.toggle k) ks
    (rest.1, fb.cell k || rest.2)

/-- MarkDirty(). -/
def markDirty (s : State) : State :=
  { s with dirty := true }

/-! timer_decrement (44_input_timer.md R260). -/

/-- One timer's decrement, saturating at 0. -/
def decay (t : Byte) : Byte :=
  if 0 < t.toNat then t - 1#8 else t

/-- Tick(). -/
def tick (s : State) : State :=
  { s with DT := decay s.DT, ST := decay s.ST }

/-! Free values (log 1). -/

/-- A fresh draw of `rand` (41_register_alu.md R181, D25): the byte, and the state that has used it up. -/
def drawRand (s : State) : Byte × State :=
  (Config.rand s.draws, { s with draws := s.draws + 1 })

/-! Taking a fault (60_exceptions.md R286, R289). -/

/-- Fault entry: `faulted` <- 1 and the record of R286 is written, with the pc of the faulting step; no next-pc, no tick;
"the values of every other piece of state after a fault are unspecified" (R289), so each is a free value. Log 2. -/
def enterFault (s : State) (r : Raise) : State where
  V := Config.faultV s.draws
  I := Config.faultI s.draws
  pc := Config.faultedPc s.draws
  S := Config.faultS s.draws
  sp := Config.faultSp s.draws
  DT := Config.faultDT s.draws
  ST := Config.faultST s.draws
  key := Config.faultKey s.draws
  FB := Config.faultFB s.draws
  dirty := Config.faultDirty s.draws
  mem := Memory.ofFn (Config.faultMem s.draws)
  loaded := Config.faultLoaded s.draws
  faulted := true
  faultSpace := r.space
  faultValue := BitVec.ofNat 17 r.value
  faultPc := s.pc
  draws := s.draws + 1

/-- How an instruction that may raise ends: completed, or in the fault entry from the state it started in. -/
def settle (s : State) (result : Except Raise State) : Host.Outcome State Fault Refusal :=
  match result with
  | .ok t => .next t
  | .error r => .next (enterFault s r)

/-! The step's own parts (10_state.md R50). -/

/-- Fetch(pc) (30_encoding.md R101): two one-byte reads, big-endian; pc is not changed. -/
def fetchWord (s : State) : Except Raise Word :=
  match memRead s.mem .memFetch s.pc.toNat with
  | .error r => .error r
  | .ok hi =>
    match memRead s.mem .memFetch (s.pc.toNat + 1) with
    | .error r => .error r
    | .ok lo => .ok (wordOfBytes hi lo)

/-- The execution of an UNKNOWN word: pc + 2 and nothing else (30_encoding.md R112). -/
def skipUnknown (s : State) : State :=
  s.goto .inc2

/-- The end of a step under each TIMER_TICK (10_state.md R50, R57): a completed step ticks under PER_STEP, a faulting
one does not (D24). -/
def endStepWith (tk : TimerTick) (s : State) : State :=
  if s.faulted then s
  else
    match tk with
    | .perStep => tick s
    | .external => s

/-- The end of a step on this hardware. -/
def endStep (s : State) : State :=
  endStepWith timerTick s

/-- The end of a step after an instruction's outcome. -/
def finishStep (o : Host.Outcome State Fault Refusal) : Host.Outcome State Fault Refusal :=
  match o with
  | .next t => .next (endStep t)
  | .fault f => .fault f
  | .refused r => .refused r

/-- Code placed where the next fetch reads it, where it fits in memory (Step.lean `State.withFetchWord`). -/
def placeCode (s : State) (bytes : List Byte) : Memory :=
  if s.pc.toNat + bytes.length ≤ memSize then s.mem.setAll s.pc.toNat bytes else s.mem

end Sys2Proof.Machine
end

