-- ==== Sys2Proof/Machine/Operands.lean ====
section
/-! DEFINITION. The operand forms (30_encoding.md R105): immediates, the shifted register, glyph addresses, BCD digits,
register ranges, key indices and sprite cells. -/

namespace Sys2Proof.Machine

/-- nnn as a 16-bit value, zero-extended (30_encoding.md R104). -/
def zextImm (nnn : Imm12) : Word :=
  nnn.zeroExtend 16

/-- V[x] as a 16-bit value, zero-extended (42_memory_index.md R201). -/
def zextV (s : State) (x : Reg) : Word :=
  (s.v x).zeroExtend 16

/-- The register the shifts read (41_register_alu.md R178): Vx or Vy, as SHIFT_SRC says. -/
def shiftOperandWith (src : ShiftSrc) (s : State) (x y : Reg) : Byte :=
  match src with
  | .vx => s.v x
  | .vy => s.v y

/-- The shifted register under this machine's SHIFT_SRC, which is OPEN (log 4). -/
def shiftOperand (s : State) (x y : Reg) : Byte :=
  shiftOperandWith Config.shiftSrc s x y

/-- The address of the glyph of the low nibble of a byte (42_memory_index.md R202). -/
def glyphAddress (v : Byte) : Word :=
  BitVec.ofNat 16 ((v.extractLsb' 0 4).toNat * glyphStride)

/-- The three BCD digits, hundreds first (42_memory_index.md R203). -/
def bcdDigits (v : Byte) : List Byte :=
  [BitVec.ofNat 8 (v.toNat / 100), BitVec.ofNat 8 (v.toNat / 10 % 10), BitVec.ofNat 8 (v.toNat % 10)]

/-- V0..Vx, from V0 up (42_memory_index.md R204). -/
def lowRegisters (s : State) (x : Reg) : List Byte :=
  s.V.toList.take (x.val + 1)

/-- KeyAt(v) (44_input_timer.md R249): an index of 16 or more raises, it is not masked. -/
def keyAt (s : State) (v : Byte) : Except Raise Bool :=
  if h : v.toNat < 16 then .ok s.key[v.toNat] else .error ⟨.keyIndex, v.toNat⟩

/-- The lowest key held, if any (44_input_timer.md R253, D22). -/
def lowestKey (s : State) : Option Reg :=
  (List.finRange 16).find? (fun k => s.key[k.val])

/-- The cells of the set bits of one sprite row at (px, py): bit 7 is column 0 (43_draw.md R231, R232). -/
def rowCells (wrap : DrawWrap) (px py : Nat) (b : Byte) : List Nat :=
  ((List.range 8).filter (fun c => b.getLsbD (7 - c))).map (fun c => pixelIndex wrap (px + c) py)

/-- The cells of the set bits of a sprite, rows downward from (px, py) (43_draw.md R232). -/
def spriteCells (wrap : DrawWrap) (px py : Nat) (rows : List Byte) : List Nat :=
  match rows with
  | [] => []
  | b :: bs => rowCells wrap px py b ++ spriteCells wrap px (py + 1) bs

end Sys2Proof.Machine
end

