-- ==== Sys2Proof/Machine/Flags.lean ====
section
/-! DEFINITION. The flag computations: what VF becomes (41_register_alu.md R169, R176 to R180; 43_draw.md R232), and the
order of the two writes (10_state.md R22). -/

namespace Sys2Proof.Machine

/-- A flag as VF holds it: 1 or 0 (10_state.md R23). -/
def flagByte (b : Bool) : Byte :=
  if b then 1#8 else 0#8

/-- The carry out of bit 7 of a + b (41_register_alu.md R176). -/
def carryOut (a b : Byte) : Bool :=
  decide (256 ≤ a.toNat + b.toNat)

/-- No borrow in a - b: a >= b, equality included (41_register_alu.md R177, R179). -/
def noBorrow (a b : Byte) : Bool :=
  decide (b.toNat ≤ a.toNat)

/-- The bit a right shift drops (41_register_alu.md R178). -/
def lowBitOut (a : Byte) : Bool :=
  a.getLsbD 0

/-- The bit a left shift drops (41_register_alu.md R180). -/
def highBitOut (a : Byte) : Bool :=
  a.getLsbD 7

/-- V[x] <- result, then V[F] <- flag: "the flag is written last and VF holds the flag afterwards" (10_state.md R22). -/
def State.setResultFlag (s : State) (x : Reg) (result : Byte) (flag : Bool) : State :=
  (s.setV x result).setV regF (flagByte flag)

end Sys2Proof.Machine
end

