-- ==== Sys2Proof/Machine/Alu.lean ====
section
/-! DEFINITION. The meanings of the register/immediate class (41_register_alu.md R170 to R181). Sources are read from
the state before any write (00_scope.md R12), results wrap modulo 256 (R169), the flag is written last (10_state.md R22). -/

namespace Sys2Proof.Machine

/-- LD Vx, nn (R170). -/
def execLdImm (x : Reg) (nn : Byte) (s : State) : Host.Outcome State Fault Refusal :=
  .next ((s.setV x nn).goto .inc2)

/-- ADD Vx, nn (R171): wraps, no flag. -/
def execAddImm (x : Reg) (nn : Byte) (s : State) : Host.Outcome State Fault Refusal :=
  .next ((s.setV x (s.v x + nn)).goto .inc2)

/-- LD Vx, Vy (R172). -/
def execLdReg (x y : Reg) (s : State) : Host.Outcome State Fault Refusal :=
  .next ((s.setV x (s.v y)).goto .inc2)

/-- OR Vx, Vy (R173): VF is not reset. -/
def execOr (x y : Reg) (s : State) : Host.Outcome State Fault Refusal :=
  .next ((s.setV x (s.v x ||| s.v y)).goto .inc2)

/-- AND Vx, Vy (R174). -/
def execAnd (x y : Reg) (s : State) : Host.Outcome State Fault Refusal :=
  .next ((s.setV x (s.v x &&& s.v y)).goto .inc2)

/-- XOR Vx, Vy (R175). -/
def execXor (x y : Reg) (s : State) : Host.Outcome State Fault Refusal :=
  .next ((s.setV x (s.v x ^^^ s.v y)).goto .inc2)

/-- ADD Vx, Vy (R176): VF = carry. -/
def execAddReg (x y : Reg) (s : State) : Host.Outcome State Fault Refusal :=
  .next ((s.setResultFlag x (s.v x + s.v y) (carryOut (s.v x) (s.v y))).goto .inc2)

/-- SUB Vx, Vy (R177): Vx - Vy, VF = NOT borrow. -/
def execSub (x y : Reg) (s : State) : Host.Outcome State Fault Refusal :=
  .next ((s.setResultFlag x (s.v x - s.v y) (noBorrow (s.v x) (s.v y))).goto .inc2)

/-- SHR Vx {, Vy} (R178): VF = the bit shifted out. -/
def execShr (x y : Reg) (s : State) : Host.Outcome State Fault Refusal :=
  .next ((s.setResultFlag x (shiftOperand s x y >>> 1) (lowBitOut (shiftOperand s x y))).goto .inc2)

/-- SUBN Vx, Vy (R179): Vy - Vx, VF = NOT borrow. -/
def execSubn (x y : Reg) (s : State) : Host.Outcome State Fault Refusal :=
  .next ((s.setResultFlag x (s.v y - s.v x) (noBorrow (s.v y) (s.v x))).goto .inc2)

/-- SHL Vx {, Vy} (R180): VF = the bit shifted out. -/
def execShl (x y : Reg) (s : State) : Host.Outcome State Fault Refusal :=
  .next ((s.setResultFlag x (shiftOperand s x y <<< 1) (highBitOut (shiftOperand s x y))).goto .inc2)

/-- RND Vx, nn (R181): a fresh free byte AND nn. Log 1. -/
def execRnd (x : Reg) (nn : Byte) (s : State) : Host.Outcome State Fault Refusal :=
  .next (((drawRand s).2.setV x ((drawRand s).1 &&& nn)).goto .inc2)

end Sys2Proof.Machine
end

