-- ==== Sys2Proof/Machine/Control.lean ====
section
/-! DEFINITION. The meanings of the control/flow class (40_control_flow.md R140 to R149). -/

namespace Sys2Proof.Machine

/-- SYS nnn (R140): no-op besides pc + 2; nnn is ignored. -/
def execSys (_nnn : Imm12) (s : State) : Host.Outcome State Fault Refusal :=
  .next (s.goto .inc2)

/-- CLS (R141). -/
def execCls (s : State) : Host.Outcome State Fault Refusal :=
  .next ((clearScreen s).goto .inc2)

/-- RET (R142): raises STACK_UNDERFLOW on an empty stack. -/
def execRet (s : State) : Host.Outcome State Fault Refusal :=
  settle s ((pop s).map (fun p => p.2.goto (.ret p.1)))

/-- JP nnn (R143). -/
def execJp (nnn : Imm12) (s : State) : Host.Outcome State Fault Refusal :=
  .next (s.goto (.abs nnn))

/-- CALL nnn (R144): pushes its own address; raises STACK_OVERFLOW on a full stack. -/
def execCall (nnn : Imm12) (s : State) : Host.Outcome State Fault Refusal :=
  settle s ((push s s.pc).map (fun t => t.goto (.abs nnn)))

/-- SE Vx, nn (R145). -/
def execSeImm (x : Reg) (nn : Byte) (s : State) : Host.Outcome State Fault Refusal :=
  .next (s.skipIf (s.v x == nn))

/-- SNE Vx, nn (R146). -/
def execSneImm (x : Reg) (nn : Byte) (s : State) : Host.Outcome State Fault Refusal :=
  .next (s.skipIf (s.v x != nn))

/-- SE Vx, Vy (R147). -/
def execSeReg (x y : Reg) (s : State) : Host.Outcome State Fault Refusal :=
  .next (s.skipIf (s.v x == s.v y))

/-- SNE Vx, Vy (R148). -/
def execSneReg (x y : Reg) (s : State) : Host.Outcome State Fault Refusal :=
  .next (s.skipIf (s.v x != s.v y))

/-- JP V0, nnn (R149): the sum is not masked to 12 bits. -/
def execJpV0 (nnn : Imm12) (s : State) : Host.Outcome State Fault Refusal :=
  .next (s.goto (.absV0 nnn))

end Sys2Proof.Machine
end

