-- ==== Sys2Proof/Machine/Draw.lean ====
section
/-! DEFINITION. The meaning of the drawing class (43_draw.md R232). -/

namespace Sys2Proof.Machine

/-- The sprite's cells for DRW Vx, Vy with the rows given, on this hardware's DRAW_WRAP. -/
def drawCells (s : State) (x y : Reg) (rows : List Byte) : List Nat :=
  spriteCells drawWrap (s.v x).toNat (s.v y).toNat rows

/-- The toggles of a draw, then VF <- collision, then dirty <- 1 (R232). -/
def drawSprite (s : State) (x y : Reg) (rows : List Byte) : State :=
  let drawn := xorCells s.FB (drawCells s x y rows)
  markDirty (({ s with FB := drawn.1 } : State).setV regF (flagByte drawn.2))

/-- DRW Vx, Vy, n (R232): n = 0 reads and toggles nothing (D19); a row outside memory raises MEM_READ. -/
def execDrw (x y : Reg) (n : Nibble) (s : State) : Host.Outcome State Fault Refusal :=
  settle s ((loadAtI s n.toNat).map (fun rows => (drawSprite s x y rows).goto .inc2))

end Sys2Proof.Machine
end

