-- ==== Sys2Proof/Machine/InputTimer.lean ====
section
/-! DEFINITION. The meanings of the input class (44_input_timer.md R250 to R256). The key vector is only read:
level-triggered (R257). The tick is the step's (R260, R261). -/

namespace Sys2Proof.Machine

/-- SKP Vx (R250): raises KEY_INDEX for V[x] >= 16 (R249). -/
def execSkp (x : Reg) (s : State) : Host.Outcome State Fault Refusal :=
  settle s ((keyAt s (s.v x)).map (fun down => s.skipIf down))

/-- SKNP Vx (R251): raises KEY_INDEX for V[x] >= 16 (R249). -/
def execSknp (x : Reg) (s : State) : Host.Outcome State Fault Refusal :=
  settle s ((keyAt s (s.v x)).map (fun down => s.skipIf (!down)))

/-- LD Vx, K (R253): the lowest held key, or pc is held and nothing is written. -/
def execLdK (x : Reg) (s : State) : Host.Outcome State Fault Refusal :=
  match lowestKey s with
  | some k => .next ((s.setV x (BitVec.ofNat 8 k.val)).goto .inc2)
  | none => .next (s.goto .hold)

/-- LD Vx, DT (R254): the value before this step's tick. -/
def execLdVxDt (x : Reg) (s : State) : Host.Outcome State Fault Refusal :=
  .next ((s.setV x s.DT).goto .inc2)

/-- LD DT, Vx (R255). -/
def execLdDt (x : Reg) (s : State) : Host.Outcome State Fault Refusal :=
  .next (({ s with DT := s.v x } : State).goto .inc2)

/-- LD ST, Vx (R256). -/
def execLdSt (x : Reg) (s : State) : Host.Outcome State Fault Refusal :=
  .next (({ s with ST := s.v x } : State).goto .inc2)

end Sys2Proof.Machine
end

