-- ==== Sys2Proof/Machine/MemIndex.lean ====
section
/-! DEFINITION. The meanings of the memory/index class (42_memory_index.md R200 to R205). -/

namespace Sys2Proof.Machine

/-- LD I, nnn (R200). -/
def execLdI (nnn : Imm12) (s : State) : Host.Outcome State Fault Refusal :=
  .next ((s.setI (zextImm nnn)).goto .inc2)

/-- ADD I, Vx (R201): wraps modulo 2^16, VF unchanged (D15). -/
def execAddI (x : Reg) (s : State) : Host.Outcome State Fault Refusal :=
  .next ((s.setI (s.I + zextV s x)).goto .inc2)

/-- LD F, Vx (R202): the high nibble is ignored. -/
def execLdF (x : Reg) (s : State) : Host.Outcome State Fault Refusal :=
  .next ((s.setI (glyphAddress (s.v x))).goto .inc2)

/-- LD B, Vx (R203): three digits at I, I + 1, I + 2; I unchanged. -/
def execLdB (x : Reg) (s : State) : Host.Outcome State Fault Refusal :=
  settle s ((storeAtI s (bcdDigits (s.v x))).map (fun t => t.goto .inc2))

/-- LD [I], Vx (R204): V0..Vx at I up; I unchanged. -/
def execStRegs (x : Reg) (s : State) : Host.Outcome State Fault Refusal :=
  settle s ((storeAtI s (lowRegisters s x)).map (fun t => t.goto .inc2))

/-- LD Vx, [I] (R205): V0..Vx from I up; I unchanged. -/
def execLdRegs (x : Reg) (s : State) : Host.Outcome State Fault Refusal :=
  settle s ((loadAtI s (x.val + 1)).map (fun bytes => (s.setLowV bytes).goto .inc2))

end Sys2Proof.Machine
end

