-- ==== Sys2Proof/Machine/Step.lean ====
section
/-! DEFINITION. One step (10_state.md R50), with the order of checks of 60_exceptions.md R288. -/

namespace Sys2Proof.Machine

/-- step() (10_state.md R50 to R52): refused on a faulted or an unloaded core; else fetch, decode, execute, tick.
A fetch that raises takes the fault entry; an UNKNOWN word is skipped and the step completes (30_encoding.md R112). -/
def step (s : State) : Host.Outcome State Fault Refusal :=
  if s.faulted then .refused .faulted
  else if !s.loaded then .refused .notLoaded
  else
    match fetchWord s with
    | .error r => .next (enterFault s r)
    | .ok w =>
      match decode w with
      | .error _ => .next (endStep (skipUnknown s))
      | .ok i => finishStep (exec i s)

/-- The instruction whose table bits are given, stored where the next step fetches, on a core that has a program and is
not faulted (log 14): it stands for the host's load. -/
def State.withFetchWord (s : State) (nbits w : Nat) : State :=
  { s with mem := placeCode s (tableBytes nbits w), loaded := true, faulted := false }

end Sys2Proof.Machine
end

