-- ==== Sys2Proof/Machine/HostOps.lean ====
section
/-! DEFINITION. The host operations (10_state.md R45 to R57) with the results of 60_exceptions.md R281. Each is one atomic
transition, never inside a step (R46), and "a model is a sequence of host operations" (R46): `runOps`. -/

namespace Sys2Proof.Machine

/-- The fault record returned with FAULT_OUT_OF_BOUNDS and kept while `faulted` = 1 (60_exceptions.md R286). -/
structure FaultRecord where
  space : FaultSpace
  value : BitVec 17
  pc : Word
  deriving DecidableEq, Repr

/-- The record a faulted core holds. -/
def State.faultRecord (s : State) : FaultRecord :=
  ⟨s.faultSpace, s.faultValue, s.faultPc⟩

/-- The results of `step` (60_exceptions.md R281). -/
inductive StepResult where
  /-- OK. -/
  | ok
  /-- UNKNOWN_OPCODE with its word (R283): a report, kept nowhere in the core (D36). -/
  | unknownOpcode (w : Word)
  /-- FAULT_OUT_OF_BOUNDS with the record (R286). -/
  | faultOutOfBounds (record : FaultRecord)
  /-- REFUSED_NOT_LOADED and REFUSED_FAULTED, by the refusal's name (10_state.md R51, R52). -/
  | refused (r : Refusal)
  deriving DecidableEq, Repr

/-- The code numbers of `step` (60_exceptions.md R281). -/
def StepResult.code (r : StepResult) : Nat :=
  match r with
  | .ok => 0
  | .unknownOpcode _ => 1
  | .faultOutOfBounds _ => 2
  | .refused r => if r = .faulted then 4 else 3

/-- What a step that moved from `s` to `t` reports (10_state.md R50): a fault's record, the unknown word, or OK. -/
def stepReport (s t : State) : StepResult :=
  if t.faulted then .faultOutOfBounds t.faultRecord
  else
    match fetchWord s with
    | .error _ => .ok
    | .ok w =>
      match decode w with
      | .error _ => .unknownOpcode w
      | .ok _ => .ok

/-- step() as the host sees it: its result and the state after; a refusal is the identity (60_exceptions.md R285). -/
def stepOp (s : State) : StepResult × State :=
  match step s with
  | .next t => (stepReport s t, t)
  | .fault f => nomatch f
  | .refused r => (.refused r, s)

/-- The results of `load` (60_exceptions.md R281). -/
inductive LoadResult where
  | ok
  /-- LOAD_ERROR_TOO_LARGE with the length (60_exceptions.md R284). -/
  | tooLarge (length : Nat)
  /-- REFUSED_ALREADY_LOADED. -/
  | refusedAlreadyLoaded
  deriving DecidableEq, Repr

/-- The code numbers of `load` (60_exceptions.md R281). -/
def LoadResult.code (r : LoadResult) : Nat :=
  match r with
  | .ok => 0
  | .tooLarge _ => 5
  | .refusedAlreadyLoaded => 6

/-- load(bytes) (10_state.md R53): copied verbatim to 0x200 up, not through the glyph-protecting accessor. -/
def load (bytes : List Byte) (s : State) : LoadResult × State :=
  if s.loaded then (.refusedAlreadyLoaded, s)
  else if progMax < bytes.length then (.tooLarge bytes.length, s)
  else (.ok, { s with mem := s.mem.setAll progBase bytes, loaded := true })

/-- pollFramebuffer() (10_state.md R54): the cells only if dirty, and dirty is cleared; legal in every engine state. -/
def pollFramebuffer (s : State) : Option (List Bool) × State :=
  if s.dirty then (some s.FB.view, { s with dirty := false }) else (none, s)

/-- The results of `setKey`: done, or REFUSED_BAD_KEY with the index (60_exceptions.md R281, code 7). -/
inductive SetKeyResult where
  | done
  | refusedBadKey (index : Nat)
  deriving DecidableEq, Repr

/-- The code number of a refused `setKey` (60_exceptions.md R281); a `setKey` that is done returns no code. -/
def SetKeyResult.code (r : SetKeyResult) : Option Nat :=
  match r with
  | .done => none
  | .refusedBadKey _ => some 7

/-- setKey(index, pressed) (10_state.md R55): legal in every engine state; an index outside 0..15 changes nothing. -/
def setKey (index : Nat) (pressed : Bool) (s : State) : SetKeyResult × State :=
  if h : index < 16 then (.done, { s with key := s.key.set index pressed })
  else (.refusedBadKey index, s)

/-- soundActive() (10_state.md R56): exactly when ST = 1. -/
def soundActive (s : State) : Bool :=
  s.ST == 1#8

/-- tick() under each TIMER_TICK (10_state.md R57): it exists only under EXTERNAL; the Bool says whether it does. -/
def tickOpWith (tk : TimerTick) (s : State) : Bool × State :=
  match tk with
  | .perStep => (false, s)
  | .external => (true, tick s)

/-- tick() on this hardware. -/
def tickOp (s : State) : Bool × State :=
  tickOpWith timerTick s

/-- The core's external interface (10_state.md R45). -/
inductive HostOp where
  | load (bytes : List Byte)
  | step
  | pollFramebuffer
  | setKey (index : Nat) (pressed : Bool)
  | soundActive
  | tick
  deriving DecidableEq, Repr

/-- What an operation returns to the host. -/
inductive HostResult where
  | load (r : LoadResult)
  | step (r : StepResult)
  | frame (cells : Option (List Bool))
  | key (r : SetKeyResult)
  | sound (active : Bool)
  | tick (exists_ : Bool)
  deriving DecidableEq, Repr

/-- One host operation: its result and the state after it (10_state.md R46). -/
def hostOp (op : HostOp) (s : State) : HostResult × State :=
  match op with
  | .load bytes => (.load (load bytes s).1, (load bytes s).2)
  | .step => (.step (stepOp s).1, (stepOp s).2)
  | .pollFramebuffer => (.frame (pollFramebuffer s).1, (pollFramebuffer s).2)
  | .setKey index pressed => (.key (setKey index pressed s).1, (setKey index pressed s).2)
  | .soundActive => (.sound (soundActive s), s)
  | .tick => (.tick (tickOp s).1, (tickOp s).2)

/-- The state after a sequence of host operations (10_state.md R46). -/
def runOps (ops : List HostOp) (s : State) : State :=
  match ops with
  | [] => s
  | op :: rest => runOps rest (hostOp op s).2

end Sys2Proof.Machine
end

