-- ==== Sys2Proof/Safety.lean ====
section
/-! DEFINITION. What counts as a safe run: the live core, the two terminal conditions of 70_reset_and_hazards.md R324, the
invariants the spec derives for reachable states, and the frames that statements use. -/

namespace Sys2Proof

open Machine

/-- A core on which a step is not refused: a program is loaded and no fault has ended a step (10_state.md R51, R52). -/
abbrev Live (s : State) : Prop :=
  s.loaded = true ∧ s.faulted = false

/-- FAULTED (70_reset_and_hazards.md R324): the terminal state that is never a successful end. -/
abbrev Faulted (s : State) : Prop :=
  s.faulted = true

/-- PARKED (70_reset_and_hazards.md R324): the word at pc is a jump to pc, and pc <= 0xFFE. -/
structure Parked (s : State) : Prop where
  live : Live s
  pc_le : s.pc.toNat ≤ 0xFFE
  word : ∃ nnn : Imm12, nnn.toNat = s.pc.toNat ∧
    wordOfBytes (s.mem.get s.pc.toNat) (s.mem.get (s.pc.toNat + 1)) = encode (.jp nnn)

/-- The glyphs are as at construction: mem[0..79] equals FONT (20_memory.md R85). -/
abbrev GlyphsIntact (s : State) : Prop :=
  ∀ a, a < 80 → s.mem.get a = fontTable.getD a 0#8

/-- Every return address in use is a pc from which a fetch succeeded (10_state.md R27, 40_control_flow.md R142). -/
abbrev StackFetchable (s : State) : Prop :=
  ∀ k, (h : k < 16) → k < s.sp.val → (s.S[k]).toNat ≤ 0xFFE

/-- What every operation keeps. Memory keeps its canonical form in every state; the rest is said of a core that is not
faulted, since "a model asserts nothing" of a faulted core's other state (60_exceptions.md R289). -/
structure Inv (s : State) : Prop where
  mem_wf : s.mem.wf
  glyphs : s.faulted = false → GlyphsIntact s
  pc_bound : s.faulted = false → s.pc.toNat ≤ 0x10FE
  stack : s.faulted = false → StackFetchable s

/-! Frames. Each says which part of the state is the same in two states. -/

/-- The stack: every entry and the pointer. -/
abbrev SameStack (s t : State) : Prop :=
  t.S = s.S ∧ t.sp = s.sp

/-- Both timers. -/
abbrev SameTimers (s t : State) : Prop :=
  t.DT = s.DT ∧ t.ST = s.ST

/-- Every framebuffer cell and the dirty flag. -/
abbrev SameDisplay (s t : State) : Prop :=
  t.FB = s.FB ∧ t.dirty = s.dirty

/-- The engine status: loaded, faulted and the fault record. -/
abbrev SameStatus (s t : State) : Prop :=
  t.loaded = s.loaded ∧ t.faulted = s.faulted ∧ t.faultRecord = s.faultRecord

/-- Every byte of memory, through the read of one byte. -/
abbrev SameMemory (s t : State) : Prop :=
  ∀ a, t.mem.get a = s.mem.get a

/-- Every V register but those `written` names. -/
abbrev SameVBut (written : Reg → Prop) (s t : State) : Prop :=
  ∀ r, ¬ written r → t.v r = s.v r

/-- Everything but the V registers, I and pc. -/
structure SameElsewhere (s t : State) : Prop where
  stack : SameStack s t
  timers : SameTimers s t
  display : SameDisplay s t
  key : t.key = s.key
  status : SameStatus s t
  mem : SameMemory s t
  draws : t.draws = s.draws

/-- Nothing but pc differs. -/
abbrev PcOnly (s t : State) : Prop :=
  t = { s with pc := t.pc }

/-- The frame of an instruction that writes V registers: the others, I, and everything else are as before. -/
structure RegFrame (written : Reg → Prop) (s t : State) : Prop where
  v : SameVBut written s t
  i : t.I = s.I
  elsewhere : SameElsewhere s t

/-- The frame of an instruction that writes one V register. -/
abbrev WritesV (x : Reg) (s t : State) : Prop :=
  RegFrame (fun r => r = x) s t

/-- The frame of an instruction that writes one V register and the flag (10_state.md R22). -/
abbrev WritesVAndFlag (x : Reg) (s t : State) : Prop :=
  RegFrame (fun r => r = x ∨ r = regF) s t

/-- The core took the fault entry with this record (60_exceptions.md R286, R289); nothing is said of the rest. -/
abbrev FaultedWith (t : State) (space : FaultSpace) (value : Nat) (pc : Word) : Prop :=
  t.faulted = true ∧ t.faultRecord = ⟨space, BitVec.ofNat 17 value, pc⟩

/-- The lowest address at or above `a` that a write may not touch, when a write from `a` up raises
(20_memory.md R73, 60_exceptions.md R288). -/
def firstBadWrite (a : Nat) : Nat :=
  if a < 80 then a else max a 4096

/-- i is a storing instruction, and these are the bytes it stores from I up: the digits of Vx, hundreds first
(42_memory_index.md R203), or V0..Vx (R204). No other instruction stores (20_memory.md R70). -/
def Stores (i : Instr) (s : State) (bytes : List Byte) : Prop :=
  (∃ x, i = .ldB x ∧ bytes.map BitVec.toNat =
    [(s.v x).toNat / 100, (s.v x).toNat / 10 % 10, (s.v x).toNat % 10]) ∨
  (∃ x, i = .stRegs x ∧ bytes.length = x.val + 1 ∧ ∀ r : Reg, r ≤ x → bytes[r.val]? = some (s.v r))

/-- The byte at an address once bytes have been stored from I up: the stored one where the store covers the address,
the old one elsewhere (20_memory.md R78). -/
def byteAfterStore (s : State) (bytes : List Byte) (a : Nat) : Byte :=
  if s.I.toNat ≤ a then bytes.getD (a - s.I.toNat) (s.mem.get a) else s.mem.get a

/-- Which space each instruction can raise, if any (60_exceptions.md R287). -/
def raisedSpace (i : Instr) : Option FaultSpace :=
  match i with
  | .call _ => some .stackOverflow
  | .ret => some .stackUnderflow
  | .drw _ _ _ => some .memRead
  | .ldRegs _ => some .memRead
  | .ldB _ => some .memWrite
  | .stRegs _ => some .memWrite
  | .skp _ => some .keyIndex
  | .sknp _ => some .keyIndex
  | .cls | .sys _ | .jp _ | .seImm _ _ | .sneImm _ _ | .seReg _ _ | .sneReg _ _ | .jpV0 _ => none
  | .ldImm _ _ | .addImm _ _ | .ldReg _ _ | .or _ _ | .and _ _ | .xor _ _ | .addReg _ _ | .sub _ _ => none
  | .shr _ _ | .subn _ _ | .shl _ _ | .rnd _ _ | .ldI _ | .addI _ | .ldF _ | .ldK _ => none
  | .ldVxDt _ | .ldDt _ | .ldSt _ => none

/-- The register an instruction names as its destination, or V0..Vx for LD Vx,[I] (10_state.md R21). -/
def namesV (i : Instr) (r : Reg) : Prop :=
  match i with
  | .ldImm x _ | .addImm x _ | .rnd x _ | .ldK x | .ldVxDt x => r = x
  | .ldReg x _ | .or x _ | .and x _ | .xor x _ | .addReg x _ | .sub x _ | .shr x _ | .subn x _ | .shl x _ => r = x
  | .ldRegs x => r ≤ x
  | .cls | .ret | .sys _ | .jp _ | .call _ | .seImm _ _ | .sneImm _ _ | .seReg _ _ | .sneReg _ _ | .jpV0 _ => False
  | .ldI _ | .addI _ | .ldF _ | .ldB _ | .stRegs _ | .drw _ _ _ | .skp _ | .sknp _ | .ldDt _ | .ldSt _ => False

/-- The instructions that write VF as a flag: "exactly ADD Vx,Vy, SUB, SHR, SUBN, SHL and DRW" (10_state.md R22). -/
def writesFlag (i : Instr) : Prop :=
  match i with
  | .addReg _ _ | .sub _ _ | .shr _ _ | .subn _ _ | .shl _ _ | .drw _ _ _ => True
  | .ldImm _ _ | .addImm _ _ | .rnd _ _ | .ldK _ | .ldVxDt _ | .ldReg _ _ | .or _ _ | .and _ _ | .xor _ _ => False
  | .ldRegs _ | .cls | .ret | .sys _ | .jp _ | .call _ | .seImm _ _ | .sneImm _ _ | .seReg _ _ | .sneReg _ _ => False
  | .jpV0 _ | .ldI _ | .addI _ | .ldF _ | .ldB _ | .stRegs _ | .skp _ | .sknp _ | .ldDt _ | .ldSt _ => False

/-- Cell k is one a set bit of the sprite lands on: row r below V[y], column c right of V[x], bit 7 leftmost, the flat
index taken modulo 2048 (43_draw.md R230 with DRAW_WRAP = FLAT, R231, R232). -/
def SpriteHits (s : State) (x y : Reg) (n : Nibble) (k : Nat) : Prop :=
  ∃ r c, r < n.toNat ∧ c < 8 ∧ (s.mem.get (s.I.toNat + r)).getLsbD (7 - c) = true ∧
    (((s.v y).toNat + r) * 64 + ((s.v x).toNat + c)) % 2048 = k

end Sys2Proof
end

