-- ==== Sys2Proof/Certificates/Slice0/Obligations.lean ====
section
/-! DEFINITION. The statements about the CHIP-8 CORE, each citing the rules of spec/ it formalises. -/

open Sys2Proof Sys2Proof.Machine

/-! Encoding and decoding. -/

/-- Every well-formed instruction, with every operand at every value its encoding admits, is the decoding of its
word. Rests on the encodings of 30_encoding.md R103, R104, R107, R120, which the spec marks as general knowledge in
part (log 8). -/
def Obligations.DecodeEncode : Prop :=
  ∀ i : Instr, i.wf = true → decode (encode i) = .ok i

/-- A word that decodes to an instruction is the word of that instruction, and the instruction is well formed. Rests
on 30_encoding.md R103, R104, R113 (general knowledge in part, log 8). -/
def Obligations.EncodeDecode : Prop :=
  ∀ (w : Word) (i : Instr), decode w = .ok i → i.wf = true ∧ encode i = w

/-- Decoding is the selection of 30_encoding.md R107 over the rows of R120: the row of smallest priority whose (w AND
mask) = match; a word that fits no row is UNKNOWN; two rows fit one word only at 00E0 and 00EE, where the priorities
are 1 and 2. The spec marks R107 as derived from the masks of R120. -/
def Obligations.DecodeSelectsTableRow : Prop :=
  (∀ w : Word, decode w =
    match tableDecode w with
    | some i => .ok i
    | none => .error (.unknownOpcode w)) ∧
  opcodeTable.Pairwise (fun r q => ∀ w, r.fits w = true → q.fits w = true → w = 0x00E0#16 ∨ w = 0x00EE#16) ∧
  (opcodeTable.filter (fun r => r.fits 0x00E0#16)).map (fun r => r.prio) = [1, 2] ∧
  (opcodeTable.filter (fun r => r.fits 0x00EE#16)).map (fun r => r.prio) = [1, 2]

/-- The words that decode to no instruction are exactly those 30_encoding.md R111 lists by their nibbles (marked
derived by the spec). The rule's count of them is not stated. -/
def Obligations.UnknownWords : Prop :=
  ∀ w : Word, decode w = .error (.unknownOpcode w) ↔
    (classNibble w = 0x5#4 ∧ (fields w).n ≠ 0#4) ∨
    (classNibble w = 0x8#4 ∧ 8 ≤ (fields w).n.toNat ∧ (fields w).n ≠ 0xE#4) ∨
    (classNibble w = 0x9#4 ∧ (fields w).n ≠ 0#4) ∨
    (classNibble w = 0xE#4 ∧ (fields w).nn ≠ 0x9E#8 ∧ (fields w).nn ≠ 0xA1#8) ∨
    (classNibble w = 0xF#4 ∧
      (fields w).nn ∉ [0x07#8, 0x0A#8, 0x15#8, 0x18#8, 0x1E#8, 0x29#8, 0x33#8, 0x55#8, 0x65#8])

/-- Nine words written out from 30_encoding.md R122 (00E0, 6A05, 3A05, 1204) and from the patterns of R120, at least
one of each family. A sanity statement. -/
def Obligations.WrittenWords : Prop :=
  decode 0x00E0#16 = .ok .cls ∧ decode 0x6A05#16 = .ok (.ldImm 0xA 0x05#8) ∧
  decode 0x3A05#16 = .ok (.seImm 0xA 0x05#8) ∧ decode 0x1204#16 = .ok (.jp 0x204#12) ∧
  decode 0x00E1#16 = .ok (.sys 0x0E1#12) ∧ decode 0x8126#16 = .ok (.shr 1 2) ∧
  decode 0xF31E#16 = .ok (.addI 3) ∧ decode 0xD125#16 = .ok (.drw 1 2 5#4) ∧ decode 0xE59E#16 = .ok (.skp 5)

/-! The step. -/

/-- 10_state.md R50, 60_exceptions.md R281: on a live core whose two bytes at pc decode to i, a step is exec of i at
that state, then one decrement of both timers and the report OK, unless the instruction took the fault entry (its
report is in FaultEntry); then no tick. TIMER_TICK = PER_STEP is the spec's decision D23, no tick on a faulting step
D24 (log 6); that a fault is a next state is log 3. -/
def Obligations.StepRunsDecoded : Prop :=
  ∀ (s : State) (i : Instr), Live s → s.pc.toNat ≤ 0xFFE →
    decode (wordOfBytes (s.mem.get s.pc.toNat) (s.mem.get (s.pc.toNat + 1))) = .ok i →
    ∀ u, exec i s = .next u →
      (u.faulted = true → step s = .next u) ∧
      (u.faulted = false → ∃ t, t = { u with DT := decay u.DT, ST := decay u.ST } ∧
        step s = .next t ∧ stepOp s = (.ok, t))

/-- 30_encoding.md R112, 10_state.md R50, 44_input_timer.md R260: on a live core an UNKNOWN word is no fault: pc
advances by 2, both timers tick, nothing else changes, and the step reports UNKNOWN_OPCODE with the word. That both
timers tick on this step rests on the spec's decisions D23 (PER_STEP) and D24 (log 6). -/
def Obligations.UnknownWordIsSkipped : Prop :=
  ∀ (s : State) (w : Word), Live s → s.pc.toNat ≤ 0xFFE →
    wordOfBytes (s.mem.get s.pc.toNat) (s.mem.get (s.pc.toNat + 1)) = w →
    decode w = .error (.unknownOpcode w) →
    ∃ t, step s = .next t ∧ stepOp s = (.unknownOpcode w, t) ∧ t.pc = s.pc + 2#16 ∧ t.faulted = false ∧
      t.DT.toNat = s.DT.toNat - 1 ∧ t.ST.toNat = s.ST.toNat - 1 ∧
      t = { s with pc := t.pc, DT := t.DT, ST := t.ST }

/-- 10_state.md R51, R52, in the order of 60_exceptions.md R288: a step on a faulted core, then one on a core without
a program, is refused and changes nothing (the spec's decisions D7, D27, D35; log 11). 70_reset_and_hazards.md R324:
a live core's step always goes on, completed or faulted (a fault is a next state: log 3), and never reports a
refusal. -/
def Obligations.RefusedStepsChangeNothing : Prop :=
  (∀ s : State, s.faulted = true →
    step s = .refused .faulted ∧ stepOp s = (.refused .faulted, s)) ∧
  (∀ s : State, s.faulted = false → s.loaded = false →
    step s = .refused .notLoaded ∧ stepOp s = (.refused .notLoaded, s)) ∧
  (∀ s : State, Live s → ∃ t, step s = .next t ∧ (stepOp s).2 = t ∧ ∀ r, (stepOp s).1 ≠ .refused r)

/-- 30_encoding.md R101: the fetched word is big-endian, mem[pc] above mem[pc+1]; at pc = 0xFFF a live core's step
takes the fault entry with address 0x1000, at 0x1000 and above with address pc (marked derived by the spec; decision
D9). -/
def Obligations.FetchReadsOrFaults : Prop :=
  (∀ s : State, s.pc.toNat ≤ 0xFFE → ∃ w, fetchWord s = .ok w ∧
    w.extractLsb' 8 8 = s.mem.get s.pc.toNat ∧ w.extractLsb' 0 8 = s.mem.get (s.pc.toNat + 1)) ∧
  (∀ s : State, Live s → s.pc.toNat = 0xFFF →
    ∃ t, step s = .next t ∧ FaultedWith t .memFetch 0x1000 s.pc) ∧
  (∀ s : State, Live s → 0x1000 ≤ s.pc.toNat →
    ∃ t, step s = .next t ∧ FaultedWith t .memFetch s.pc.toNat s.pc)

/-- 60_exceptions.md R286, R289: a step that ends faulted reports FAULT_OUT_OF_BOUNDS with the record, whose pc is
that of the step; where an instruction raised, the state is that instruction's fault entry, with no tick after it
(the spec's decisions D6, D7; log 2 for the rest of the state). -/
def Obligations.FaultEntry : Prop :=
  ∀ s t : State, step s = .next t → t.faulted = true →
    stepOp s = (.faultOutOfBounds t.faultRecord, t) ∧ t.faultPc = s.pc ∧
    (∀ i u, s.pc.toNat ≤ 0xFFE →
      decode (wordOfBytes (s.mem.get s.pc.toNat) (s.mem.get (s.pc.toNat + 1))) = .ok i →
      exec i s = .next u → t = u)

/-- 60_exceptions.md R286, R290: whatever host operations follow, a faulted core stays faulted, keeps its record and
refuses every step (the spec's decision D7). -/
def Obligations.FaultIsSticky : Prop :=
  ∀ (ops : List HostOp) (s : State), s.faulted = true →
    (runOps ops s).faulted = true ∧ (runOps ops s).faultRecord = s.faultRecord ∧
    step (runOps ops s) = .refused .faulted

/-- Every instruction gives a next state from every state (a fault is a next state: the model's choice, log 3); one
that newly ends faulted raises the one space 60_exceptions.md R287 gives it, with its own pc in the record; the 27
others raise nothing (R287 is marked derived by the spec). -/
def Obligations.WhichInstructionRaisesWhat : Prop :=
  ∀ (i : Instr) (s : State), ∃ t, exec i s = .next t ∧
    (s.faulted = false → t.faulted = true → raisedSpace i = some t.faultSpace ∧ t.faultPc = s.pc)

/-! Invariants. -/

/-- Memory keeps its canonical form; and on a core that is not faulted the glyphs are FONT (20_memory.md R85), pc is
at most 0x10FE and every return address in use at most 0xFFE (10_state.md R27, 40_control_flow.md R142; all marked
derived by the spec). The canonical form is the model's (log 13); a faulted core is excepted because 60_exceptions.md
R289 leaves its state open (log 2). -/
def Obligations.StepKeepsInv : Prop :=
  ∀ s t : State, Inv s → step s = .next t → Inv t

/-- The invariant of StepKeepsInv holds of the state of 70_reset_and_hazards.md R321 (values of the spec's decision
D26, log 9). -/
def Obligations.ResetInv : Prop :=
  Inv State.reset

/-- 10_state.md R46, 20_memory.md R85: from any state with the invariant, any sequence of host operations (load,
step, poll, setKey, soundActive, tick) leads to a state with it. -/
def Obligations.RunsKeepInv : Prop :=
  ∀ (ops : List HostOp) (s : State), Inv s → Inv (runOps ops s)

/-- 10_state.md R36, R37, R54 to R56: where no fault results, only setKey changes a key, only step and
pollFramebuffer the dirty flag, and an operation other than step changes no register, no stack, no timer and no cell
(on this hardware tick() does not exist, log 6). -/
def Obligations.HostOpFrames : Prop :=
  ∀ (op : HostOp) (s : State), (hostOp op s).2.faulted = false →
    ((∀ k b, op ≠ .setKey k b) → (hostOp op s).2.key = s.key) ∧
    (op ≠ .step → op ≠ .pollFramebuffer → (hostOp op s).2.dirty = s.dirty) ∧
    (op ≠ .step → (hostOp op s).2.V = s.V ∧ (hostOp op s).2.I = s.I ∧ (hostOp op s).2.pc = s.pc ∧
      (hostOp op s).2.S = s.S ∧ (hostOp op s).2.sp = s.sp ∧ (hostOp op s).2.DT = s.DT ∧
      (hostOp op s).2.ST = s.ST ∧ (hostOp op s).2.FB = s.FB)

/-! Rules of the whole machine. -/

/-- 10_state.md R21, R22: a completed instruction leaves every V register but those it names as its destination, and
VF unless it is one of the six that write the flag. -/
def Obligations.OnlyNamedRegistersChange : Prop :=
  ∀ (i : Instr) (s t : State), exec i s = .next t → t.faulted = false →
    ∀ r, ¬ namesV i r → ¬ (writesFlag i ∧ r = regF) → t.v r = s.v r

/-- 10_state.md R24, R29, R34, R36, R37, 43_draw.md R234, 44_input_timer.md R257, 20_memory.md R70: of completed
instructions, only LD I, ADD I and LD F write I; only RET and CALL the stack; only LD DT and LD ST a timer; only CLS
and DRW the display; only LD B and LD [I] memory; none a key, loaded or faulted. -/
def Obligations.OnlyTheirInstructionsWrite : Prop :=
  ∀ (i : Instr) (s t : State), exec i s = .next t → t.faulted = false →
    t.key = s.key ∧ t.loaded = s.loaded ∧ t.faulted = s.faulted ∧
    (t.I = s.I ∨ (∃ nnn, i = .ldI nnn) ∨ (∃ x, i = .addI x) ∨ ∃ x, i = .ldF x) ∧
    (SameStack s t ∨ i = .ret ∨ ∃ nnn, i = .call nnn) ∧
    (t.DT = s.DT ∨ ∃ x, i = .ldDt x) ∧ (t.ST = s.ST ∨ ∃ x, i = .ldSt x) ∧
    (SameDisplay s t ∨ i = .cls ∨ ∃ x y n, i = .drw x y n) ∧
    (t.mem = s.mem ∨ (∃ x, i = .ldB x) ∨ ∃ x, i = .stRegs x)

/-! Control and flow. -/

/-- 40_control_flow.md R140: encoding 0nnn; pc + 2 and nothing else, whatever nnn is. That exec runs the terms with
nnn = 0x0E0 and 0x0EE as SYS too is the model's choice (log 18): their words are CLS and RET (30_encoding.md R107),
so no step runs them. -/
def Obligations.SysIsANoOp : Prop :=
  ∀ (nnn : Imm12) (s : State), encode (.sys nnn) &&& 0xF000#16 = 0x0000#16 ∧
    ∃ t, exec (.sys nnn) s = .next t ∧ t.pc = s.pc + 2#16 ∧ PcOnly s t

/-- 40_control_flow.md R141: encoding 00E0; every cell 0, dirty 1, pc + 2, nothing else. -/
def Obligations.ClsClearsTheScreen : Prop :=
  ∀ s : State, encode .cls = 0x00E0#16 ∧
    ∃ t, exec .cls s = .next t ∧ (∀ k, k < 2048 → t.FB.cell k = false) ∧ t.dirty = true ∧ t.pc = s.pc + 2#16 ∧
      t = { s with pc := t.pc, FB := t.FB, dirty := t.dirty }

/-- 40_control_flow.md R142, 10_state.md R30, R31: encoding 00EE; pc is the popped entry + 2, sp falls by one, no
entry is cleared, nothing else changes; at sp = 0 the fault entry STACK_UNDERFLOW, 0 (the spec's decisions D4, D5).
-/
def Obligations.RetReturns : Prop :=
  encode .ret = 0x00EE#16 ∧
  (∀ (s : State) (h : s.sp.val ≠ 0), ∃ t, exec .ret s = .next t ∧
    t.pc = s.S[s.sp.val - 1]'(by omega) + 2#16 ∧ t.sp.val = s.sp.val - 1 ∧ t.S = s.S ∧
    t = { s with pc := t.pc, sp := t.sp }) ∧
  (∀ s : State, s.sp.val = 0 → ∃ t, exec .ret s = .next t ∧ FaultedWith t .stackUnderflow 0 s.pc)

/-- 40_control_flow.md R143, R149: encodings 1nnn and Bnnn; pc = nnn, and pc = nnn + V0 not masked to 12 bits (the
spec's decision D31); nothing else changes. -/
def Obligations.JumpTargets : Prop :=
  ∀ (nnn : Imm12) (s : State),
    encode (.jp nnn) &&& 0xF000#16 = 0x1000#16 ∧ encode (.jpV0 nnn) &&& 0xF000#16 = 0xB000#16 ∧
    (∃ t, exec (.jp nnn) s = .next t ∧ t.pc.toNat = nnn.toNat ∧ PcOnly s t) ∧
    (∃ t, exec (.jpV0 nnn) s = .next t ∧ t.pc.toNat = nnn.toNat + (s.v 0).toNat ∧ PcOnly s t)

/-- 40_control_flow.md R144, 10_state.md R30: encoding 2nnn; S[sp] = pc, the other entries unchanged, sp + 1, pc =
nnn, nothing else; at sp = 16 the fault entry STACK_OVERFLOW, 16 (the spec's decisions D4, D5). -/
def Obligations.CallPushesItsAddress : Prop :=
  ∀ (nnn : Imm12) (s : State), encode (.call nnn) &&& 0xF000#16 = 0x2000#16 ∧
    (s.sp.val < 16 → ∃ t, exec (.call nnn) s = .next t ∧ t.pc.toNat = nnn.toNat ∧ t.sp.val = s.sp.val + 1 ∧
      (∀ k, (hk : k < 16) → t.S[k] = if k = s.sp.val then s.pc else s.S[k]) ∧
      t = { s with pc := t.pc, sp := t.sp, S := t.S }) ∧
    (s.sp.val = 16 → ∃ t, exec (.call nnn) s = .next t ∧ FaultedWith t .stackOverflow 16 s.pc)

/-- 40_control_flow.md R142, R144, 10_state.md R31: after a CALL at sp < 16 and anything that leaves the stack as it
is, a RET gives pc = the CALL's address + 2, the sp before the CALL, and the entry still in place. -/
def Obligations.ReturnUndoesCall : Prop :=
  ∀ (nnn : Imm12) (s : State) (h : s.sp.val < 16), ∃ t, exec (.call nnn) s = .next t ∧
    ∀ u : State, SameStack t u → ∃ v, exec .ret u = .next v ∧
      v.pc = s.pc + 2#16 ∧ v.sp = s.sp ∧ v.S[s.sp.val] = s.pc

/-- 40_control_flow.md R145 to R148: encodings 3xnn, 4xnn, 5xy0, 9xy0; pc + 4 when the condition holds, else pc + 2,
nothing else changes. -/
def Obligations.RegisterSkips : Prop :=
  ∀ (x y : Reg) (nn : Byte) (s : State),
    encode (.seImm x nn) &&& 0xF000#16 = 0x3000#16 ∧ encode (.sneImm x nn) &&& 0xF000#16 = 0x4000#16 ∧
    encode (.seReg x y) &&& 0xF00F#16 = 0x5000#16 ∧ encode (.sneReg x y) &&& 0xF00F#16 = 0x9000#16 ∧
    (∃ t, exec (.seImm x nn) s = .next t ∧ PcOnly s t ∧ t.pc = s.pc + if s.v x = nn then 4#16 else 2#16) ∧
    (∃ t, exec (.sneImm x nn) s = .next t ∧ PcOnly s t ∧ t.pc = s.pc + if s.v x ≠ nn then 4#16 else 2#16) ∧
    (∃ t, exec (.seReg x y) s = .next t ∧ PcOnly s t ∧ t.pc = s.pc + if s.v x = s.v y then 4#16 else 2#16) ∧
    (∃ t, exec (.sneReg x y) s = .next t ∧ PcOnly s t ∧ t.pc = s.pc + if s.v x ≠ s.v y then 4#16 else 2#16)

/-! Registers and immediates. -/

/-- 41_register_alu.md R170, R172: encodings 6xnn and 8xy0; Vx is nn, or Vy; pc + 2; no flag and nothing else
changes. -/
def Obligations.RegisterLoads : Prop :=
  ∀ (x y : Reg) (nn : Byte) (s : State),
    encode (.ldImm x nn) &&& 0xF000#16 = 0x6000#16 ∧ encode (.ldReg x y) &&& 0xF00F#16 = 0x8000#16 ∧
    (∃ t, exec (.ldImm x nn) s = .next t ∧ t.v x = nn ∧ t.pc = s.pc + 2#16 ∧ WritesV x s t) ∧
    (∃ t, exec (.ldReg x y) s = .next t ∧ t.v x = s.v y ∧ t.pc = s.pc + 2#16 ∧ WritesV x s t)

/-- 41_register_alu.md R171: encoding 7xnn; Vx is the sum modulo 256; pc + 2; no flag, even on overflow, and nothing
else changes. -/
def Obligations.AddImmediateWraps : Prop :=
  ∀ (x : Reg) (nn : Byte) (s : State), encode (.addImm x nn) &&& 0xF000#16 = 0x7000#16 ∧
    ∃ t, exec (.addImm x nn) s = .next t ∧ (t.v x).toNat = ((s.v x).toNat + nn.toNat) % 256 ∧
      t.pc = s.pc + 2#16 ∧ WritesV x s t

/-- 41_register_alu.md R173 to R175: encodings 8xy1, 8xy2, 8xy3; each bit of Vx is the OR, AND or XOR of the bits of
Vx and Vy; pc + 2; no flag change, and nothing else changes. -/
def Obligations.BitwiseOperations : Prop :=
  ∀ (x y : Reg) (s : State),
    encode (.or x y) &&& 0xF00F#16 = 0x8001#16 ∧ encode (.and x y) &&& 0xF00F#16 = 0x8002#16 ∧
    encode (.xor x y) &&& 0xF00F#16 = 0x8003#16 ∧
    (∃ t, exec (.or x y) s = .next t ∧ t.pc = s.pc + 2#16 ∧ WritesV x s t ∧
      ∀ k, (t.v x).getLsbD k = ((s.v x).getLsbD k || (s.v y).getLsbD k)) ∧
    (∃ t, exec (.and x y) s = .next t ∧ t.pc = s.pc + 2#16 ∧ WritesV x s t ∧
      ∀ k, (t.v x).getLsbD k = ((s.v x).getLsbD k && (s.v y).getLsbD k)) ∧
    (∃ t, exec (.xor x y) s = .next t ∧ t.pc = s.pc + 2#16 ∧ WritesV x s t ∧
      ∀ k, (t.v x).getLsbD k = ((s.v x).getLsbD k ^^ (s.v y).getLsbD k))

/-- 41_register_alu.md R176, 10_state.md R22: encoding 8xy4; Vx is the sum modulo 256, VF the carry; with x = 15 VF
holds the flag (written last: the spec's decision D12); pc + 2; nothing else changes. -/
def Obligations.AddRegisters : Prop :=
  ∀ (x y : Reg) (s : State), encode (.addReg x y) &&& 0xF00F#16 = 0x8004#16 ∧
    ∃ t, exec (.addReg x y) s = .next t ∧ t.pc = s.pc + 2#16 ∧ WritesVAndFlag x s t ∧
      (x ≠ regF → (t.v x).toNat = ((s.v x).toNat + (s.v y).toNat) % 256) ∧
      (t.v regF).toNat = if (s.v x).toNat + (s.v y).toNat ≥ 256 then 1 else 0

/-- 41_register_alu.md R177, R179, 10_state.md R22: encodings 8xy5 and 8xy7; Vx is the difference modulo 256, VF = 1
when no borrow occurs, equality included; with x = 15 VF holds the flag (decision D12); pc + 2; nothing else changes.
-/
def Obligations.SubtractRegisters : Prop :=
  ∀ (x y : Reg) (s : State),
    encode (.sub x y) &&& 0xF00F#16 = 0x8005#16 ∧ encode (.subn x y) &&& 0xF00F#16 = 0x8007#16 ∧
    (∃ t, exec (.sub x y) s = .next t ∧ t.pc = s.pc + 2#16 ∧ WritesVAndFlag x s t ∧
      (x ≠ regF → (t.v x).toNat = ((s.v x).toNat + 256 - (s.v y).toNat) % 256) ∧
      (t.v regF).toNat = if (s.v x).toNat ≥ (s.v y).toNat then 1 else 0) ∧
    (∃ t, exec (.subn x y) s = .next t ∧ t.pc = s.pc + 2#16 ∧ WritesVAndFlag x s t ∧
      (x ≠ regF → (t.v x).toNat = ((s.v y).toNat + 256 - (s.v x).toNat) % 256) ∧
      (t.v regF).toNat = if (s.v y).toNat ≥ (s.v x).toNat then 1 else 0)

/-- 41_register_alu.md R178, R180: encodings 8xy6 and 8xyE; with src the register the OPEN parameter SHIFT_SRC names
(decision D14, log 4), Vx is src / 2, or src * 2 modulo 256, VF the bit shifted out; with x = 15 VF holds the flag
(decision D12); pc + 2; nothing else changes. It holds for both values. -/
def Obligations.Shifts : Prop :=
  ∀ (x y : Reg) (s : State) (src : Byte),
    (Config.shiftSrc = .vx → src = s.v x) → (Config.shiftSrc = .vy → src = s.v y) →
    encode (.shr x y) &&& 0xF00F#16 = 0x8006#16 ∧ encode (.shl x y) &&& 0xF00F#16 = 0x800E#16 ∧
    (∃ t, exec (.shr x y) s = .next t ∧ t.pc = s.pc + 2#16 ∧ WritesVAndFlag x s t ∧
      (x ≠ regF → (t.v x).toNat = src.toNat / 2) ∧ (t.v regF).toNat = src.toNat % 2) ∧
    (∃ t, exec (.shl x y) s = .next t ∧ t.pc = s.pc + 2#16 ∧ WritesVAndFlag x s t ∧
      (x ≠ regF → (t.v x).toNat = src.toNat * 2 % 256) ∧ (t.v regF).toNat = src.toNat / 128)

/-- 41_register_alu.md R181: encoding Cxnn; Vx is a fresh free byte AND nn, so 0 when nn = 0; pc + 2; but for the
model's own count of draws nothing else changes. The byte is the model's free value (decision D25, log 1): the
statement holds whatever it is. -/
def Obligations.RandomIsMasked : Prop :=
  ∀ (x : Reg) (nn : Byte) (s : State), encode (.rnd x nn) &&& 0xF000#16 = 0xC000#16 ∧
    ∃ t, exec (.rnd x nn) s = .next t ∧ t.v x = Config.rand s.draws &&& nn ∧ t.draws = s.draws + 1 ∧
      t.pc = s.pc + 2#16 ∧ SameVBut (fun r => r = x) s t ∧
      t = { s with V := t.V, pc := t.pc, draws := t.draws } ∧ (nn = 0#8 → t.v x = 0#8)

/-! Index register and memory. -/

/-- 42_memory_index.md R200, R201, R202: encodings Annn, Fx1E, Fx29; I is nnn, I + Vx modulo 2^16, or 5 times the low
nibble of Vx; pc + 2; VF and all else unchanged (ADD I sets no flag: the spec's decision D15). -/
def Obligations.IndexWrites : Prop :=
  ∀ (nnn : Imm12) (x : Reg) (s : State),
    encode (.ldI nnn) &&& 0xF000#16 = 0xA000#16 ∧ encode (.addI x) &&& 0xF0FF#16 = 0xF01E#16 ∧
    encode (.ldF x) &&& 0xF0FF#16 = 0xF029#16 ∧
    (∃ t, exec (.ldI nnn) s = .next t ∧ t.I.toNat = nnn.toNat ∧ t.pc = s.pc + 2#16 ∧
      t = { s with I := t.I, pc := t.pc }) ∧
    (∃ t, exec (.addI x) s = .next t ∧ t.I.toNat = (s.I.toNat + (s.v x).toNat) % 65536 ∧ t.pc = s.pc + 2#16 ∧
      t = { s with I := t.I, pc := t.pc }) ∧
    (∃ t, exec (.ldF x) s = .next t ∧ t.I.toNat = (s.v x).toNat % 16 * 5 ∧ t.pc = s.pc + 2#16 ∧
      t = { s with I := t.I, pc := t.pc })

/-- 42_memory_index.md R203: encoding Fx33; mem[I], mem[I+1], mem[I+2] are the hundreds, tens and ones of Vx, every
other byte, I and all else unchanged, pc + 2; where a byte would fall at 4096 or above, or below 80, the fault entry
MEM_WRITE with the first such address (decisions D10, D11, D35). Memory in canonical form (log 13). -/
def Obligations.BcdStore : Prop :=
  ∀ (x : Reg) (s : State), s.mem.wf → encode (.ldB x) &&& 0xF0FF#16 = 0xF033#16 ∧
    (80 ≤ s.I.toNat → s.I.toNat + 2 < 4096 → ∃ t, exec (.ldB x) s = .next t ∧
      (t.mem.get s.I.toNat).toNat = (s.v x).toNat / 100 ∧
      (t.mem.get (s.I.toNat + 1)).toNat = (s.v x).toNat / 10 % 10 ∧
      (t.mem.get (s.I.toNat + 2)).toNat = (s.v x).toNat % 10 ∧
      (∀ a, a < s.I.toNat ∨ s.I.toNat + 2 < a → t.mem.get a = s.mem.get a) ∧
      t.pc = s.pc + 2#16 ∧ t = { s with mem := t.mem, pc := t.pc }) ∧
    (s.I.toNat < 80 ∨ 4096 ≤ s.I.toNat + 2 →
      ∃ t, exec (.ldB x) s = .next t ∧ FaultedWith t .memWrite (firstBadWrite s.I.toNat) s.pc)

/-- 42_memory_index.md R204: encoding Fx55; mem[I + r] = V[r] for r up to x, every other byte, I and all else
unchanged, pc + 2; or the fault entry MEM_WRITE with the first bad address (decisions D10, D11, D35). Memory in
canonical form (log 13). -/
def Obligations.BlockStore : Prop :=
  ∀ (x : Reg) (s : State), s.mem.wf → encode (.stRegs x) &&& 0xF0FF#16 = 0xF055#16 ∧
    (80 ≤ s.I.toNat → s.I.toNat + x.val < 4096 → ∃ t, exec (.stRegs x) s = .next t ∧
      (∀ r : Reg, r ≤ x → t.mem.get (s.I.toNat + r.val) = s.v r) ∧
      (∀ a, a < s.I.toNat ∨ s.I.toNat + x.val < a → t.mem.get a = s.mem.get a) ∧
      t.pc = s.pc + 2#16 ∧ t = { s with mem := t.mem, pc := t.pc }) ∧
    (s.I.toNat < 80 ∨ 4096 ≤ s.I.toNat + x.val →
      ∃ t, exec (.stRegs x) s = .next t ∧ FaultedWith t .memWrite (firstBadWrite s.I.toNat) s.pc)

/-- 42_memory_index.md R205: encoding Fx65; V[r] = mem[I + r] for r up to x, the registers above, I and all else
unchanged, pc + 2; or the fault entry MEM_READ with the first address of 4096 or more (no wrap of I + r and rising
order: the spec's decisions D10, D35; log 11). -/
def Obligations.BlockLoad : Prop :=
  ∀ (x : Reg) (s : State), encode (.ldRegs x) &&& 0xF0FF#16 = 0xF065#16 ∧
    (s.I.toNat + x.val < 4096 → ∃ t, exec (.ldRegs x) s = .next t ∧
      (∀ r : Reg, r ≤ x → t.v r = s.mem.get (s.I.toNat + r.val)) ∧ t.pc = s.pc + 2#16 ∧
      RegFrame (fun r => r ≤ x) s t) ∧
    (4096 ≤ s.I.toNat + x.val →
      ∃ t, exec (.ldRegs x) s = .next t ∧ FaultedWith t .memRead (max s.I.toNat 4096) s.pc)

/-- 42_memory_index.md R206 (marked derived by the spec): for every x and every I with 80 <= I and I + x <= 4095, LD
[I],Vx then LD Vx,[I], with any change of registers in between, restores V0..Vx. Memory in canonical form (log 13).
-/
def Obligations.BlockRoundTrip : Prop :=
  ∀ (x : Reg) (s : State), s.mem.wf → 80 ≤ s.I.toNat → s.I.toNat + x.val ≤ 4095 →
    ∃ t, exec (.stRegs x) s = .next t ∧
      ∀ u : State, u.mem = t.mem → u.I = t.I → ∃ v, exec (.ldRegs x) u = .next v ∧
        ∀ r : Reg, r ≤ x → v.v r = s.v r

/-- 20_memory.md R72, R73, R78: a read below 4096 gives the byte, above it raises with the address; a write in [80,
4096) changes the addressed byte only; any other write raises MEM_WRITE with the address (below 80: the spec's
decision D11, log 11). The premise that memory is in canonical form, and the conclusion that a write keeps it, are
the model's choice of representation (log 13), not the rules'. -/
def Obligations.BoundsCheckedAccess : Prop :=
  ∀ (m : Memory) (a : Nat) (v : Byte) (space : FaultSpace), m.wf →
    (a < 4096 → memRead m space a = .ok (m.get a)) ∧
    (4096 ≤ a → memRead m space a = .error ⟨space, a⟩) ∧
    (80 ≤ a → a < 4096 → ∃ m', memWrite m a v = .ok m' ∧ m'.wf ∧ m'.get a = v ∧
      ∀ b, b ≠ a → m'.get b = m.get b) ∧
    (a < 80 ∨ 4096 ≤ a → memWrite m a v = .error ⟨.memWrite, a⟩)

/-- 20_memory.md R83, 70_reset_and_hazards.md R334 (marked derived by the spec): after a completed LD B,Vx or LD
[I],Vx, wherever I points, the next fetch (at pc + 2) reads the stored bytes where the store covers them and the old
ones elsewhere, and so does the fetch at any pc of any state that still has that memory (the state after the step's
tick is one). Memory in canonical form before the store (log 13). -/
def Obligations.StoredCodeIsFetched : Prop :=
  ∀ (i : Instr) (s t : State) (bytes : List Byte), s.mem.wf → Stores i s bytes →
    exec i s = .next t → t.faulted = false →
    (s.pc.toNat ≤ 0xFFC → fetchWord t =
      .ok (wordOfBytes (byteAfterStore s bytes (s.pc.toNat + 2)) (byteAfterStore s bytes (s.pc.toNat + 3)))) ∧
    (∀ u : State, u.mem = t.mem → u.pc.toNat ≤ 0xFFE → fetchWord u =
      .ok (wordOfBytes (byteAfterStore s bytes u.pc.toNat) (byteAfterStore s bytes (u.pc.toNat + 1))))

/-! Drawing. -/

/-- 43_draw.md R232 with R230 (FLAT) and R231: encoding Dxyn; a cell a set sprite bit lands on is toggled, every
other cell is unchanged; VF is 1 exactly when a toggled cell was 1 before; dirty 1; pc + 2; nothing else changes; n =
0 draws nothing; where a row lies at 4096 or above, the fault entry MEM_READ with the first such address (decisions
D16 to D19, D35; log 5). -/
def Obligations.DrawTogglesSpriteCells : Prop :=
  ∀ (x y : Reg) (n : Nibble) (s : State), encode (.drw x y n) &&& 0xF000#16 = 0xD000#16 ∧
    (n = 0#4 ∨ s.I.toNat + n.toNat ≤ 4096 → ∃ t, exec (.drw x y n) s = .next t ∧
      (∀ k, k < 2048 → (SpriteHits s x y n k → t.FB.cell k = !s.FB.cell k) ∧
        (¬ SpriteHits s x y n k → t.FB.cell k = s.FB.cell k)) ∧
      ((∃ k, SpriteHits s x y n k ∧ s.FB.cell k = true) → t.v regF = 1#8) ∧
      ((¬ ∃ k, SpriteHits s x y n k ∧ s.FB.cell k = true) → t.v regF = 0#8) ∧
      SameVBut (fun r => r = regF) s t ∧ t.dirty = true ∧ t.pc = s.pc + 2#16 ∧
      t = { s with V := t.V, FB := t.FB, dirty := t.dirty, pc := t.pc }) ∧
    (n ≠ 0#4 → 4096 < s.I.toNat + n.toNat →
      ∃ t, exec (.drw x y n) s = .next t ∧ FaultedWith t .memRead (max s.I.toNat 4096) s.pc)

/-- 43_draw.md R232's derived claim: the cells of a sprite of at most 15 rows are pairwise different, under either
DRAW_WRAP. -/
def Obligations.NoCellToggledTwice : Prop :=
  ∀ (wrap : DrawWrap) (px py : Nat) (rows : List Byte), rows.length ≤ 15 → (spriteCells wrap px py rows).Nodup

/-- 43_draw.md R233 (marked derived by the spec): a second DRW with the same coordinates, height and sprite bytes
restores FB; it sets VF = 1 when some cell of the sprite was 0 before the first draw. The rule's clause without that
condition does not follow from R232 (log 15). -/
def Obligations.DrawIsItsOwnInverse : Prop :=
  ∀ (x y : Reg) (n : Nibble) (s : State), n = 0#4 ∨ s.I.toNat + n.toNat ≤ 4096 →
    ∃ t, exec (.drw x y n) s = .next t ∧
      ∀ u : State, u.FB = t.FB → u.mem = t.mem → u.I = t.I → u.v x = s.v x → u.v y = s.v y →
        ∃ w, exec (.drw x y n) u = .next w ∧ w.FB = s.FB ∧
          ((∃ k, SpriteHits s x y n k ∧ s.FB.cell k = false) → w.v regF = 1#8)

/-! Keys and timers. -/

/-- 44_input_timer.md R249 to R251: encodings Ex9E and ExA1; for V[x] < 16 pc + 4 when the key is down (up), else pc
+ 2, nothing else changes; for V[x] >= 16 the fault entry KEY_INDEX, V[x] (the spec's decision D20). -/
def Obligations.KeySkips : Prop :=
  ∀ (x : Reg) (s : State),
    encode (.skp x) &&& 0xF0FF#16 = 0xE09E#16 ∧ encode (.sknp x) &&& 0xF0FF#16 = 0xE0A1#16 ∧
    (∀ h : (s.v x).toNat < 16,
      (∃ t, exec (.skp x) s = .next t ∧ PcOnly s t ∧
        t.pc = s.pc + if s.key[(s.v x).toNat] = true then 4#16 else 2#16) ∧
      (∃ t, exec (.sknp x) s = .next t ∧ PcOnly s t ∧
        t.pc = s.pc + if s.key[(s.v x).toNat] = false then 4#16 else 2#16)) ∧
    (16 ≤ (s.v x).toNat →
      (∃ t, exec (.skp x) s = .next t ∧ FaultedWith t .keyIndex (s.v x).toNat s.pc) ∧
      (∃ t, exec (.sknp x) s = .next t ∧ FaultedWith t .keyIndex (s.v x).toNat s.pc))

/-- 44_input_timer.md R253: encoding Fx0A; the lowest held key goes to Vx and pc + 2; with no key held nothing at all
changes, pc included (lowest: the spec's decision D22). -/
def Obligations.WaitForKey : Prop :=
  ∀ (x : Reg) (s : State), encode (.ldK x) &&& 0xF0FF#16 = 0xF00A#16 ∧
    (∀ k : Reg, s.key[k.val] = true → (∀ j : Reg, j < k → s.key[j.val] = false) →
      ∃ t, exec (.ldK x) s = .next t ∧ (t.v x).toNat = k.val ∧ t.pc = s.pc + 2#16 ∧ WritesV x s t) ∧
    ((∀ j : Reg, s.key[j.val] = false) → exec (.ldK x) s = .next s)

/-- 44_input_timer.md R254 to R256, before the step's tick (that tick after the write is OneTickPerCompletedStep):
encodings Fx07, Fx15, Fx18; the one value moves, pc + 2, nothing else changes. -/
def Obligations.TimerAccess : Prop :=
  ∀ (x : Reg) (s : State),
    encode (.ldVxDt x) &&& 0xF0FF#16 = 0xF007#16 ∧ encode (.ldDt x) &&& 0xF0FF#16 = 0xF015#16 ∧
    encode (.ldSt x) &&& 0xF0FF#16 = 0xF018#16 ∧
    (∃ t, exec (.ldVxDt x) s = .next t ∧ t.v x = s.DT ∧ t.pc = s.pc + 2#16 ∧ WritesV x s t) ∧
    (∃ t, exec (.ldDt x) s = .next t ∧ t.DT = s.v x ∧ t.pc = s.pc + 2#16 ∧ t = { s with DT := t.DT, pc := t.pc }) ∧
    (∃ t, exec (.ldSt x) s = .next t ∧ t.ST = s.v x ∧ t.pc = s.pc + 2#16 ∧ t = { s with ST := t.ST, pc := t.pc })

/-- 44_input_timer.md R260, R261: a step that runs an instruction and does not fault decrements each timer by one,
saturating at 0; after LD DT or LD ST it is the value written that has been decremented; LD Vx,DT read the value
before (PER_STEP: decision D23, log 6). -/
def Obligations.OneTickPerCompletedStep : Prop :=
  ∀ (s t : State) (i : Instr), s.pc.toNat ≤ 0xFFE →
    decode (wordOfBytes (s.mem.get s.pc.toNat) (s.mem.get (s.pc.toNat + 1))) = .ok i →
    step s = .next t → t.faulted = false →
    ((∀ x, i ≠ .ldDt x) → t.DT.toNat = s.DT.toNat - 1) ∧
    ((∀ x, i ≠ .ldSt x) → t.ST.toNat = s.ST.toNat - 1) ∧
    (∀ x, i = .ldDt x → t.DT.toNat = (s.v x).toNat - 1) ∧
    (∀ x, i = .ldSt x → t.ST.toNat = (s.v x).toNat - 1) ∧
    (∀ x, i = .ldVxDt x → t.v x = s.DT)

/-- 44_input_timer.md R260, 10_state.md R57: Tick decrements each timer, not below 0, and changes nothing else; under
EXTERNAL the host's tick() is one Tick and the step's end makes none; on this hardware tick() does not exist and
changes nothing (decision D23, log 6). -/
def Obligations.TickSaturates : Prop :=
  ∀ s : State, (tick s).DT.toNat = s.DT.toNat - 1 ∧ (tick s).ST.toNat = s.ST.toNat - 1 ∧
    tick s = { s with DT := (tick s).DT, ST := (tick s).ST } ∧
    tickOpWith .external s = (true, tick s) ∧ tickOp s = (false, s) ∧
    endStepWith .external s = s

/-! Host operations, reset and the end of a run. -/

/-- 10_state.md R53, 60_exceptions.md R284: a loaded core refuses; an image over 3584 bytes is refused; else its
bytes stand from 0x200 up, every other byte and all else is unchanged, loaded is 1 (decision D28). Memory in
canonical form (log 13). -/
def Obligations.LoadCopiesTheImage : Prop :=
  ∀ (bytes : List Byte) (s : State), s.mem.wf →
    (s.loaded = true → load bytes s = (.refusedAlreadyLoaded, s)) ∧
    (s.loaded = false → 3584 < bytes.length → load bytes s = (.tooLarge bytes.length, s)) ∧
    (s.loaded = false → bytes.length ≤ 3584 → ∃ t, load bytes s = (.ok, t) ∧ t.loaded = true ∧
      (∀ j, (h : j < bytes.length) → t.mem.get (0x200 + j) = bytes[j]) ∧
      (∀ a, a < 0x200 ∨ 0x200 + bytes.length ≤ a → t.mem.get a = s.mem.get a) ∧
      t = { s with mem := t.mem, loaded := t.loaded })

/-- 10_state.md R54, R55, R56: poll gives the 2048 cells in order when dirty and clears dirty, else nothing; setKey
sets one key, or refuses an index of 16 or more (decision D29); soundActive is ST = 1; in every engine state
(decision D30). -/
def Obligations.HostReadsAndKeys : Prop :=
  (∀ s : State, s.dirty = true → ∃ cells, pollFramebuffer s = (some cells, { s with dirty := false }) ∧
    cells.length = 2048 ∧ ∀ k, k < 2048 → cells[k]? = some (s.FB.cell k)) ∧
  (∀ s : State, s.dirty = false → pollFramebuffer s = (none, s)) ∧
  (∀ (index : Nat) (b : Bool) (s : State), index < 16 → ∃ t, setKey index b s = (.done, t) ∧
    (∀ k, (h : k < 16) → t.key[k] = if k = index then b else s.key[k]) ∧ t = { s with key := t.key }) ∧
  (∀ (index : Nat) (b : Bool) (s : State), 16 ≤ index → setKey index b s = (.refusedBadKey index, s)) ∧
  (∀ s : State, soundActive s = true ↔ s.ST.toNat = 1)

/-- 70_reset_and_hazards.md R321: the value the rule gives for every piece of state (most by the spec's decisions D26
and D33, logs 7, 9). The fault record, unspecified there, and the model's own count of draws are not stated (logs 1,
10). -/
def Obligations.ConstructionState : Prop :=
  (∀ a, a < 80 → State.reset.mem.get a = fontTable.getD a 0#8) ∧
  (∀ a, 80 ≤ a → State.reset.mem.get a = 0#8) ∧
  State.reset.pc = 0x200#16 ∧ (∀ r : Reg, State.reset.v r = 0#8) ∧ State.reset.I = 0#16 ∧
  State.reset.sp.val = 0 ∧ (∀ k, (h : k < 16) → State.reset.S[k] = 0#16) ∧
  State.reset.DT = 0#8 ∧ State.reset.ST = 0#8 ∧ (∀ k, (h : k < 16) → State.reset.key[k] = false) ∧
  (∀ k, k < 2048 → State.reset.FB.cell k = false) ∧ State.reset.dirty = false ∧
  State.reset.loaded = false ∧ State.reset.faulted = false

/-- 70_reset_and_hazards.md R322: an image that begins with the word of a well-formed instruction, loaded into a
constructed core, leaves pc at 0x200, and the next step runs that instruction and ends as a step ends. How a program
comes to run is log 14; faulted = 0 after construction is the spec's decision D26 (log 9); the tick at the step's end
is its decision D23 (log 6). -/
def Obligations.BootRunsTheFirstInstruction : Prop :=
  ∀ (bytes : List Byte) (i : Instr) (t : State), bytes.length ≤ 3582 → i.wf = true →
    load (encodeBytes i ++ bytes) State.reset = (.ok, t) →
    t.pc = 0x200#16 ∧ step t = finishStep (exec i t)

/-- 70_reset_and_hazards.md R324 (the spec's decision D42): a step of a PARKED core changes only the timers, and the
core is PARKED again. 10_state.md R50, 44_input_timer.md R260: each timer falls by one, not below 0 (PER_STEP:
decision D23, log 6). -/
def Obligations.ParkedChangesOnlyTimers : Prop :=
  ∀ s : State, Parked s → ∃ t, step s = .next t ∧ Parked t ∧
    t.DT.toNat = s.DT.toNat - 1 ∧ t.ST.toNat = s.ST.toNat - 1 ∧ t = { s with DT := t.DT, ST := t.ST }

/-- 44_input_timer.md R262, 70_reset_and_hazards.md R324 (marked derived and decision D42 by the spec): after k steps
of a parked core each timer has fallen by k, to 0 at the least, and nothing else has changed (PER_STEP: decision D23,
log 6). -/
def Obligations.ParkedTimersRunOut : Prop :=
  ∀ (k : Nat) (s : State), Parked s →
    (runOps (List.replicate k .step) s).DT.toNat = s.DT.toNat - k ∧
    (runOps (List.replicate k .step) s).ST.toNat = s.ST.toNat - k ∧
    runOps (List.replicate k .step) s =
      { s with DT := (runOps (List.replicate k .step) s).DT, ST := (runOps (List.replicate k .step) s).ST }
end

