-- ==== Sys2Proof/Laws/Decode.lean ====
section
/-! SUPPORT. The bits and the fields of the words the encoder makes, and their literal parts under the table's masks. -/

namespace Sys2Proof

/-! Each format bit by bit (30_encoding.md R103). -/

theorem getLsbD_encNNN (c : Nibble) (nnn : Imm12) (k : Nat) :
    (encNNN c nnn).getLsbD k = if k < 12 then nnn.getLsbD k else c.getLsbD (k - 12) :=
  BitVec.getLsbD_append

theorem getLsbD_encXNN (c : Nibble) (x : Reg) (nn : Byte) (k : Nat) :
    (encXNN c x nn).getLsbD k =
      if k < 8 then nn.getLsbD k
      else if k - 8 < 4 then (BitVec.ofFin x : Nibble).getLsbD (k - 8) else c.getLsbD (k - 8 - 4) := by
  have h : (encXNN c x nn).getLsbD k =
      if k < 8 then nn.getLsbD k else (c ++ (BitVec.ofFin x : Nibble)).getLsbD (k - 8) := BitVec.getLsbD_append
  rw [h, BitVec.getLsbD_append]

theorem getLsbD_encXYN (c : Nibble) (x y : Reg) (n : Nibble) (k : Nat) :
    (encXYN c x y n).getLsbD k =
      if k < 4 then n.getLsbD k
      else if k - 4 < 4 then (BitVec.ofFin y : Nibble).getLsbD (k - 4)
      else if k - 4 - 4 < 4 then (BitVec.ofFin x : Nibble).getLsbD (k - 4 - 4) else c.getLsbD (k - 4 - 4 - 4) := by
  have h : (encXYN c x y n).getLsbD k =
      if k < 4 then n.getLsbD k
      else (c ++ (BitVec.ofFin x : Nibble) ++ (BitVec.ofFin y : Nibble)).getLsbD (k - 4) := BitVec.getLsbD_append
  rw [h, BitVec.getLsbD_append, BitVec.getLsbD_append]

/-! The fields each format gives back (30_encoding.md R104). -/

@[simp] theorem classNibble_encNNN (c : Nibble) (nnn : Imm12) : classNibble (encNNN c nnn) = c := by
  apply BitVec.eq_of_getLsbD_eq
  intro i hi
  interval_cases i <;> simp [-BitVec.getLsbD_eq_getElem, classNibble, getLsbD_encNNN]

@[simp] theorem nnn_encNNN (c : Nibble) (nnn : Imm12) : (fields (encNNN c nnn)).nnn = nnn := by
  apply BitVec.eq_of_getLsbD_eq
  intro i hi
  simp [fields, getLsbD_encNNN, hi]

@[simp] theorem classNibble_encXNN (c : Nibble) (x : Reg) (nn : Byte) : classNibble (encXNN c x nn) = c := by
  apply BitVec.eq_of_getLsbD_eq
  intro i hi
  interval_cases i <;> simp [-BitVec.getLsbD_eq_getElem, classNibble, getLsbD_encXNN]

@[simp] theorem x_encXNN (c : Nibble) (x : Reg) (nn : Byte) : (fields (encXNN c x nn)).x = x := by
  have h : (encXNN c x nn).extractLsb' 8 4 = BitVec.ofFin x := by
    apply BitVec.eq_of_getLsbD_eq
    intro i hi
    interval_cases i <;> simp [-BitVec.getLsbD_eq_getElem, getLsbD_encXNN]
  simp [fields, h]

@[simp] theorem nn_encXNN (c : Nibble) (x : Reg) (nn : Byte) : (fields (encXNN c x nn)).nn = nn := by
  apply BitVec.eq_of_getLsbD_eq
  intro i hi
  simp [fields, getLsbD_encXNN, hi]

@[simp] theorem classNibble_encXYN (c : Nibble) (x y : Reg) (n : Nibble) : classNibble (encXYN c x y n) = c := by
  apply BitVec.eq_of_getLsbD_eq
  intro i hi
  interval_cases i <;> simp [-BitVec.getLsbD_eq_getElem, classNibble, getLsbD_encXYN]

@[simp] theorem x_encXYN (c : Nibble) (x y : Reg) (n : Nibble) : (fields (encXYN c x y n)).x = x := by
  have h : (encXYN c x y n).extractLsb' 8 4 = BitVec.ofFin x := by
    apply BitVec.eq_of_getLsbD_eq
    intro i hi
    interval_cases i <;> simp [-BitVec.getLsbD_eq_getElem, getLsbD_encXYN]
  simp [fields, h]

@[simp] theorem y_encXYN (c : Nibble) (x y : Reg) (n : Nibble) : (fields (encXYN c x y n)).y = y := by
  have h : (encXYN c x y n).extractLsb' 4 4 = BitVec.ofFin y := by
    apply BitVec.eq_of_getLsbD_eq
    intro i hi
    interval_cases i <;> simp [-BitVec.getLsbD_eq_getElem, getLsbD_encXYN]
  simp [fields, h]

@[simp] theorem n_encXYN (c : Nibble) (x y : Reg) (n : Nibble) : (fields (encXYN c x y n)).n = n := by
  apply BitVec.eq_of_getLsbD_eq
  intro i hi
  simp [fields, getLsbD_encXYN, hi]

/-! What the table's masks leave of each format: the literal parts (30_encoding.md R120). -/

theorem encNNN_and_class (c : Nibble) (nnn : Imm12) : encNNN c nnn &&& 0xF000#16 = encNNN c 0#12 := by
  apply BitVec.eq_of_getLsbD_eq
  intro i hi
  interval_cases i <;> simp [-BitVec.getLsbD_eq_getElem, getLsbD_encNNN]

theorem encXNN_and_class (c : Nibble) (x : Reg) (nn : Byte) : encXNN c x nn &&& 0xF000#16 = encXNN c 0 0#8 := by
  apply BitVec.eq_of_getLsbD_eq
  intro i hi
  interval_cases i <;> simp [-BitVec.getLsbD_eq_getElem, getLsbD_encXNN]

theorem encXNN_and_low (c : Nibble) (x : Reg) (nn : Byte) : encXNN c x nn &&& 0xF0FF#16 = encXNN c 0 nn := by
  apply BitVec.eq_of_getLsbD_eq
  intro i hi
  interval_cases i <;> simp [-BitVec.getLsbD_eq_getElem, getLsbD_encXNN]

theorem encXYN_and_class (c : Nibble) (x y : Reg) (n : Nibble) :
    encXYN c x y n &&& 0xF000#16 = encXYN c 0 0 0#4 := by
  apply BitVec.eq_of_getLsbD_eq
  intro i hi
  interval_cases i <;> simp [-BitVec.getLsbD_eq_getElem, getLsbD_encXYN]

theorem encXYN_and_function (c : Nibble) (x y : Reg) (n : Nibble) :
    encXYN c x y n &&& 0xF00F#16 = encXYN c 0 0 n := by
  apply BitVec.eq_of_getLsbD_eq
  intro i hi
  interval_cases i <;> simp [-BitVec.getLsbD_eq_getElem, getLsbD_encXYN]

/-! A word is made of its fields. -/

theorem word_eq_encNNN (w : Word) : w = encNNN (classNibble w) (fields w).nnn := by
  apply BitVec.eq_of_getLsbD_eq
  intro i hi
  interval_cases i <;> simp [-BitVec.getLsbD_eq_getElem, getLsbD_encNNN, classNibble, fields]

theorem word_eq_encXNN (w : Word) : w = encXNN (classNibble w) (fields w).x (fields w).nn := by
  apply BitVec.eq_of_getLsbD_eq
  intro i hi
  have h : BitVec.ofFin (w := 4) (fields w).x = w.extractLsb' 8 4 := rfl
  interval_cases i <;> simp [-BitVec.getLsbD_eq_getElem, getLsbD_encXNN, classNibble, h] <;> simp [-BitVec.getLsbD_eq_getElem, fields]

theorem word_eq_encXYN (w : Word) : w = encXYN (classNibble w) (fields w).x (fields w).y (fields w).n := by
  apply BitVec.eq_of_getLsbD_eq
  intro i hi
  have hx : BitVec.ofFin (w := 4) (fields w).x = w.extractLsb' 8 4 := rfl
  have hy : BitVec.ofFin (w := 4) (fields w).y = w.extractLsb' 4 4 := rfl
  interval_cases i <;> simp [-BitVec.getLsbD_eq_getElem, getLsbD_encXYN, classNibble, hx, hy] <;> simp [-BitVec.getLsbD_eq_getElem, fields]

/-! What it means to fit a row (30_encoding.md R107), mask by mask. -/

theorem and_class_eq_iff (w : Word) (c : Nibble) : w &&& 0xF000#16 = encNNN c 0#12 ↔ classNibble w = c := by
  constructor
  · intro h
    rw [word_eq_encNNN w, encNNN_and_class] at h
    simpa using congrArg classNibble h
  · rintro rfl
    conv_lhs => rw [word_eq_encNNN w]
    exact encNNN_and_class _ _

theorem and_function_eq_iff (w : Word) (c n : Nibble) :
    w &&& 0xF00F#16 = encXYN c 0 0 n ↔ classNibble w = c ∧ (fields w).n = n := by
  constructor
  · intro h
    rw [word_eq_encXYN w, encXYN_and_function] at h
    exact ⟨by simpa using congrArg classNibble h, by simpa using congrArg (fun v => (fields v).n) h⟩
  · rintro ⟨rfl, rfl⟩
    conv_lhs => rw [word_eq_encXYN w]
    exact encXYN_and_function _ _ _ _

theorem and_low_eq_iff (w : Word) (c : Nibble) (nn : Byte) :
    w &&& 0xF0FF#16 = encXNN c 0 nn ↔ classNibble w = c ∧ (fields w).nn = nn := by
  constructor
  · intro h
    rw [word_eq_encXNN w, encXNN_and_low] at h
    exact ⟨by simpa using congrArg classNibble h, by simpa using congrArg (fun v => (fields v).nn) h⟩
  · rintro ⟨rfl, rfl⟩
    conv_lhs => rw [word_eq_encXNN w]
    exact encXNN_and_low _ _ _

/-! The decoder's first split (30_encoding.md R107). -/

/-- CLS and RET are in class 0, so any other class goes by the opcode map. -/
theorem decodeOp_of_class_ne {w : Word} (h : classNibble w ≠ 0#4) :
    decodeOp w = decodeClass (classNibble w) (fields w) := by
  have h1 : w ≠ 0x00E0#16 := by rintro rfl; exact h (by decide)
  have h2 : w ≠ 0x00EE#16 := by rintro rfl; exact h (by decide)
  rw [decodeOp, if_neg h1, if_neg h2]

theorem decode_ok_iff {w : Word} {i : Instr} : decode w = .ok i ↔ decodeOp w = some i := by
  unfold decode
  cases decodeOp w <;> simp

theorem decode_error_iff {w : Word} : decode w = .error (.unknownOpcode w) ↔ decodeOp w = none := by
  unfold decode
  cases decodeOp w <;> simp

theorem getLsbD_wordOfBytes (hi lo : Byte) (k : Nat) :
    (wordOfBytes hi lo).getLsbD k = if k < 8 then lo.getLsbD k else hi.getLsbD (k - 8) :=
  BitVec.getLsbD_append

/-- The big-endian bytes of a word make the word again (20_memory.md R75). -/
theorem wordOfBytes_extract (w : Word) : wordOfBytes (w.extractLsb' 8 8) (w.extractLsb' 0 8) = w := by
  apply BitVec.eq_of_getLsbD_eq
  intro i hi
  rw [getLsbD_wordOfBytes]
  split
  · next h => simp [h]
  · next h =>
    have h2 : i - 8 < 8 := by omega
    have h3 : 8 + (i - 8) = i := by omega
    simp [h2, h3]

end Sys2Proof
end

