-- ==== Sys2Proof/Laws/Memory.lean ====
section
/-! SUPPORT. Memory: read after write, the canonical form that every operation keeps, and its uniqueness. -/

namespace Sys2Proof.Machine

/-- Outside memory nothing is initialised: FONT ends at 80. -/
theorem Memory.initial_of_ge {a : Nat} (h : 80 ≤ a) : Memory.initial a = 0#8 := by
  have hl : fontTable.length = 80 := by decide
  simp [Memory.initial, List.getD_eq_getElem?_getD, List.getElem?_eq_none (by omega : fontTable.length ≤ a)]

/-- Inserting a cell changes the byte at its address only. -/
theorem Memory.get_insertCell (m : Memory) (a b : Nat) (v : Byte) :
    (m.insertCell a v).get b = if b = a then v else m.get b := by
  induction m with
  | nil => simp [Memory.insertCell, Memory.get]
  | cons p rest ih =>
    obtain ⟨c, u⟩ := p
    simp only [Memory.insertCell]
    split
    · simp [Memory.get]
    · split
      · subst_vars; simp only [Memory.get]; split <;> rfl
      · simp only [Memory.get, ih]
        split
        · split <;> simp_all
        · rfl

/-- A rising list lists no address at or below one that is below its head. -/
theorem Memory.get_of_lt_all (m : Memory) (a : Nat) (h : ∀ p ∈ m, a < p.1) :
    m.get a = Memory.initial a := by
  induction m with
  | nil => rfl
  | cons p rest ih =>
    obtain ⟨c, u⟩ := p
    have hc : a < c := h (c, u) (by simp)
    simp only [Memory.get, if_neg (Nat.ne_of_lt hc)]
    exact ih (fun q hq => h q (by simp [hq]))

/-- Erasing a cell of a rising list gives its construction byte back and changes no other. -/
theorem Memory.get_eraseCell (m : Memory) (hm : m.Pairwise (fun p q => p.1 < q.1)) (a b : Nat) :
    (m.eraseCell a).get b = if b = a then Memory.initial a else m.get b := by
  induction m with
  | nil => simp [Memory.eraseCell, Memory.get]; rintro rfl; rfl
  | cons p rest ih =>
    obtain ⟨c, u⟩ := p
    obtain ⟨hlt, hrest⟩ := List.pairwise_cons.1 hm
    simp only [Memory.eraseCell]
    split
    · next h =>
      subst h
      split
      · next h => subst h; exact Memory.get_of_lt_all rest b (fun p hp => hlt p hp)
      · next h => simp [Memory.get, h]
    · next h =>
      simp only [Memory.get, ih hrest]
      split
      · next h2 => subst h2; simp [Ne.symm h]
      · rfl

/-- Read after write (20_memory.md R78, "writes change only the addressed byte"). -/
theorem Memory.get_set (m : Memory) (hm : m.wf) (a b : Nat) (v : Byte) :
    (m.set a v).get b = if b = a then v else m.get b := by
  unfold Memory.set
  split
  · next h => rw [Memory.get_eraseCell m hm.1, h]
  · exact Memory.get_insertCell m a b v

theorem Memory.mem_insertCell {m : Memory} {a : Nat} {v : Byte} {p : Host.Cell}
    (h : p ∈ m.insertCell a v) : p = (a, v) ∨ p ∈ m := by
  induction m with
  | nil => simpa [Memory.insertCell] using h
  | cons q rest ih =>
    obtain ⟨c, u⟩ := q
    simp only [Memory.insertCell] at h
    split at h
    · simpa using h
    · split at h
      · rcases List.mem_cons.1 h with h | h
        · exact .inl h
        · exact .inr (by simp [h])
      · rcases List.mem_cons.1 h with h | h
        · exact .inr (by simp [h])
        · rcases ih h with h | h
          · exact .inl h
          · exact .inr (by simp [h])

theorem Memory.mem_eraseCell {m : Memory} {a : Nat} {p : Host.Cell}
    (h : p ∈ m.eraseCell a) : p ∈ m := by
  induction m with
  | nil => simp [Memory.eraseCell] at h
  | cons q rest ih =>
    simp only [Memory.eraseCell] at h
    split at h
    · exact List.mem_cons_of_mem _ h
    · rcases List.mem_cons.1 h with h | h
      · simp [h]
      · exact List.mem_cons_of_mem _ (ih h)

theorem Memory.rising_insertCell {m : Memory} (hm : m.Pairwise (fun p q => p.1 < q.1)) (a : Nat) (v : Byte) :
    (m.insertCell a v).Pairwise (fun p q => p.1 < q.1) := by
  induction m with
  | nil => simp [Memory.insertCell]
  | cons q rest ih =>
    obtain ⟨c, u⟩ := q
    obtain ⟨hlt, hrest⟩ := List.pairwise_cons.1 hm
    simp only [Memory.insertCell]
    split
    · next h =>
      refine List.pairwise_cons.2 ⟨fun p hp => ?_, hm⟩
      rcases List.mem_cons.1 hp with rfl | hp
      · exact h
      · exact Nat.lt_trans h (hlt p hp)
    · split
      · next h => subst h; exact List.pairwise_cons.2 ⟨hlt, hrest⟩
      · next h1 h2 =>
        refine List.pairwise_cons.2 ⟨fun p hp => ?_, ih hrest⟩
        rcases Memory.mem_insertCell hp with rfl | hp
        · show c < a; omega
        · exact hlt p hp

theorem Memory.rising_eraseCell {m : Memory} (hm : m.Pairwise (fun p q => p.1 < q.1)) (a : Nat) :
    (m.eraseCell a).Pairwise (fun p q => p.1 < q.1) := by
  induction m with
  | nil => simp [Memory.eraseCell]
  | cons q rest ih =>
    obtain ⟨hlt, hrest⟩ := List.pairwise_cons.1 hm
    simp only [Memory.eraseCell]
    split
    · exact hrest
    · exact List.pairwise_cons.2 ⟨fun p hp => hlt p (Memory.mem_eraseCell hp), ih hrest⟩

/-- A write inside memory keeps the canonical form. -/
theorem Memory.wf_set {m : Memory} (hm : m.wf) {a : Nat} (ha : a < memSize) (v : Byte) : (m.set a v).wf := by
  unfold Memory.set
  split
  · exact ⟨Memory.rising_eraseCell hm.1 a, fun p hp => hm.2 p (Memory.mem_eraseCell hp)⟩
  · next h =>
    refine ⟨Memory.rising_insertCell hm.1 a v, fun p hp => ?_⟩
    rcases Memory.mem_insertCell hp with rfl | hp
    · exact ⟨ha, h⟩
    · exact hm.2 p hp

/-- Writing bytes that fit in memory keeps the canonical form. -/
theorem Memory.wf_setAll {m : Memory} (hm : m.wf) (bytes : List Byte) {a : Nat} (h : a + bytes.length ≤ memSize) :
    (m.setAll a bytes).wf := by
  induction bytes generalizing m a with
  | nil => exact hm
  | cons b rest ih =>
    simp only [List.length_cons] at h
    exact ih (Memory.wf_set hm (by omega) b) (by omega)

/-- Read after a block write: the bytes written at their addresses, the old bytes elsewhere. -/
theorem Memory.get_setAll {m : Memory} (hm : m.wf) (bytes : List Byte) {a : Nat} (h : a + bytes.length ≤ memSize)
    (b : Nat) :
    (m.setAll a bytes).get b =
      if hb : a ≤ b ∧ b - a < bytes.length then bytes[b - a] else m.get b := by
  induction bytes generalizing m a with
  | nil => simp [Memory.setAll]
  | cons v rest ih =>
    simp only [List.length_cons] at h
    simp only [Memory.setAll]
    rw [ih (Memory.wf_set hm (by omega) v) (by omega), Memory.get_set m hm]
    by_cases h1 : b = a
    · subst h1
      simp
    · by_cases h2 : a + 1 ≤ b ∧ b - (a + 1) < rest.length
      · have h3 : a ≤ b ∧ b - a < (v :: rest).length := by simp only [List.length_cons]; omega
        rw [dif_pos h2, dif_pos h3]
        have : b - a = (b - (a + 1)) + 1 := by omega
        simp [this]
      · have h3 : ¬ (a ≤ b ∧ b - a < (v :: rest).length) := by simp only [List.length_cons]; omega
        rw [dif_neg h2, dif_neg h3, if_neg h1]

/-- The memory built from a function is canonical. -/
theorem Memory.wf_ofFn (f : Nat → Byte) : (Memory.ofFn f).wf := by
  constructor
  · unfold Memory.ofFn
    rw [List.pairwise_filterMap]
    refine List.Pairwise.imp ?_ (List.pairwise_lt_range (n := memSize))
    intro a b hab p hp q hq
    split at hp <;> simp at hp
    split at hq <;> simp at hq
    subst hp hq
    exact hab
  · intro p hp
    unfold Memory.ofFn at hp
    obtain ⟨a, ha, hp⟩ := List.mem_filterMap.1 hp
    split at hp
    · simp at hp
    · next h =>
      simp at hp
      subst hp
      exact ⟨List.mem_range.1 ha, h⟩

/-- The memory of the construction state is canonical (70_reset_and_hazards.md R321). -/
theorem Memory.wf_nil : Memory.wf [] :=
  ⟨List.Pairwise.nil, fun _ hp => absurd hp List.not_mem_nil⟩

/-- Two canonical memories that read alike are equal data. -/
theorem Memory.ext_of_wf {m n : Memory} (hm : m.wf) (hn : n.wf) (h : ∀ a, m.get a = n.get a) : m = n := by
  induction m generalizing n with
  | nil =>
    cases n with
    | nil => rfl
    | cons q n' =>
      have := h q.1
      obtain ⟨c, u⟩ := q
      simp [Memory.get] at this
      exact absurd this.symm (hn.2 (c, u) (by simp)).2
  | cons p m' ih =>
    obtain ⟨a, v⟩ := p
    obtain ⟨hmlt, hm'⟩ := List.pairwise_cons.1 hm.1
    have hv := (hm.2 (a, v) (by simp)).2
    cases n with
    | nil =>
      have := h a
      simp [Memory.get] at this
      exact absurd this hv
    | cons q n' =>
      obtain ⟨c, u⟩ := q
      obtain ⟨hnlt, hn'⟩ := List.pairwise_cons.1 hn.1
      have hu := (hn.2 (c, u) (by simp)).2
      have hac : a = c := by
        rcases Nat.lt_trichotomy a c with hlt | heq | hgt
        · have h1 := h a
          rw [Memory.get_of_lt_all ((c, u) :: n') a] at h1
          · simp [Memory.get] at h1
            exact absurd h1 hv
          · intro p hp
            rcases List.mem_cons.1 hp with rfl | hp
            · exact hlt
            · exact Nat.lt_trans hlt (hnlt p hp)
        · exact heq
        · have h1 := h c
          rw [Memory.get_of_lt_all ((a, v) :: m') c] at h1
          · simp [Memory.get] at h1
            exact absurd h1.symm hu
          · intro p hp
            rcases List.mem_cons.1 hp with rfl | hp
            · exact hgt
            · exact Nat.lt_trans hgt (hmlt p hp)
      subst hac
      have huv : v = u := by simpa [Memory.get] using h a
      subst huv
      have : m' = n' := by
        refine ih ⟨hm', fun p hp => hm.2 p (by simp [hp])⟩ ⟨hn', fun p hp => hn.2 p (by simp [hp])⟩ (fun b => ?_)
        by_cases hb : b = a
        · subst hb
          rw [Memory.get_of_lt_all m' b (fun p hp => hmlt p hp), Memory.get_of_lt_all n' b (fun p hp => hnlt p hp)]
        · simpa [Memory.get, hb] using h b
      rw [this]

end Sys2Proof.Machine
end

