-- ==== Sys2Proof/Laws/State.lean ====
section
/-! SUPPORT. One lemma per field per update of the state, each by rfl, for the simp set. -/

namespace Sys2Proof.Machine

/-! setV -/

@[simp] theorem State.setV_V (s : State) (x : Reg) (b : Byte) : (s.setV x b).V = s.V.set x.val b := rfl
@[simp] theorem State.setV_I (s : State) (x : Reg) (b : Byte) : (s.setV x b).I = s.I := rfl
@[simp] theorem State.setV_pc (s : State) (x : Reg) (b : Byte) : (s.setV x b).pc = s.pc := rfl
@[simp] theorem State.setV_S (s : State) (x : Reg) (b : Byte) : (s.setV x b).S = s.S := rfl
@[simp] theorem State.setV_sp (s : State) (x : Reg) (b : Byte) : (s.setV x b).sp = s.sp := rfl
@[simp] theorem State.setV_DT (s : State) (x : Reg) (b : Byte) : (s.setV x b).DT = s.DT := rfl
@[simp] theorem State.setV_ST (s : State) (x : Reg) (b : Byte) : (s.setV x b).ST = s.ST := rfl
@[simp] theorem State.setV_key (s : State) (x : Reg) (b : Byte) : (s.setV x b).key = s.key := rfl
@[simp] theorem State.setV_FB (s : State) (x : Reg) (b : Byte) : (s.setV x b).FB = s.FB := rfl
@[simp] theorem State.setV_dirty (s : State) (x : Reg) (b : Byte) : (s.setV x b).dirty = s.dirty := rfl
@[simp] theorem State.setV_mem (s : State) (x : Reg) (b : Byte) : (s.setV x b).mem = s.mem := rfl
@[simp] theorem State.setV_loaded (s : State) (x : Reg) (b : Byte) : (s.setV x b).loaded = s.loaded := rfl
@[simp] theorem State.setV_faulted (s : State) (x : Reg) (b : Byte) : (s.setV x b).faulted = s.faulted := rfl
@[simp] theorem State.setV_faultSpace (s : State) (x : Reg) (b : Byte) : (s.setV x b).faultSpace = s.faultSpace := rfl
@[simp] theorem State.setV_faultValue (s : State) (x : Reg) (b : Byte) : (s.setV x b).faultValue = s.faultValue := rfl
@[simp] theorem State.setV_faultPc (s : State) (x : Reg) (b : Byte) : (s.setV x b).faultPc = s.faultPc := rfl
@[simp] theorem State.setV_draws (s : State) (x : Reg) (b : Byte) : (s.setV x b).draws = s.draws := rfl

/-! setI -/

@[simp] theorem State.setI_V (s : State) (a : Word) : (s.setI a).V = s.V := rfl
@[simp] theorem State.setI_I (s : State) (a : Word) : (s.setI a).I = a := rfl
@[simp] theorem State.setI_pc (s : State) (a : Word) : (s.setI a).pc = s.pc := rfl
@[simp] theorem State.setI_S (s : State) (a : Word) : (s.setI a).S = s.S := rfl
@[simp] theorem State.setI_sp (s : State) (a : Word) : (s.setI a).sp = s.sp := rfl
@[simp] theorem State.setI_DT (s : State) (a : Word) : (s.setI a).DT = s.DT := rfl
@[simp] theorem State.setI_ST (s : State) (a : Word) : (s.setI a).ST = s.ST := rfl
@[simp] theorem State.setI_key (s : State) (a : Word) : (s.setI a).key = s.key := rfl
@[simp] theorem State.setI_FB (s : State) (a : Word) : (s.setI a).FB = s.FB := rfl
@[simp] theorem State.setI_dirty (s : State) (a : Word) : (s.setI a).dirty = s.dirty := rfl
@[simp] theorem State.setI_mem (s : State) (a : Word) : (s.setI a).mem = s.mem := rfl
@[simp] theorem State.setI_loaded (s : State) (a : Word) : (s.setI a).loaded = s.loaded := rfl
@[simp] theorem State.setI_faulted (s : State) (a : Word) : (s.setI a).faulted = s.faulted := rfl
@[simp] theorem State.setI_faultSpace (s : State) (a : Word) : (s.setI a).faultSpace = s.faultSpace := rfl
@[simp] theorem State.setI_faultValue (s : State) (a : Word) : (s.setI a).faultValue = s.faultValue := rfl
@[simp] theorem State.setI_faultPc (s : State) (a : Word) : (s.setI a).faultPc = s.faultPc := rfl
@[simp] theorem State.setI_draws (s : State) (a : Word) : (s.setI a).draws = s.draws := rfl

/-! setLowV -/

@[simp] theorem State.setLowV_V (s : State) (bytes : List Byte) : (s.setLowV bytes).V = Vector.ofFn (fun i : Fin 16 => bytes.getD i.val (s.v i)) := rfl
@[simp] theorem State.setLowV_I (s : State) (bytes : List Byte) : (s.setLowV bytes).I = s.I := rfl
@[simp] theorem State.setLowV_pc (s : State) (bytes : List Byte) : (s.setLowV bytes).pc = s.pc := rfl
@[simp] theorem State.setLowV_S (s : State) (bytes : List Byte) : (s.setLowV bytes).S = s.S := rfl
@[simp] theorem State.setLowV_sp (s : State) (bytes : List Byte) : (s.setLowV bytes).sp = s.sp := rfl
@[simp] theorem State.setLowV_DT (s : State) (bytes : List Byte) : (s.setLowV bytes).DT = s.DT := rfl
@[simp] theorem State.setLowV_ST (s : State) (bytes : List Byte) : (s.setLowV bytes).ST = s.ST := rfl
@[simp] theorem State.setLowV_key (s : State) (bytes : List Byte) : (s.setLowV bytes).key = s.key := rfl
@[simp] theorem State.setLowV_FB (s : State) (bytes : List Byte) : (s.setLowV bytes).FB = s.FB := rfl
@[simp] theorem State.setLowV_dirty (s : State) (bytes : List Byte) : (s.setLowV bytes).dirty = s.dirty := rfl
@[simp] theorem State.setLowV_mem (s : State) (bytes : List Byte) : (s.setLowV bytes).mem = s.mem := rfl
@[simp] theorem State.setLowV_loaded (s : State) (bytes : List Byte) : (s.setLowV bytes).loaded = s.loaded := rfl
@[simp] theorem State.setLowV_faulted (s : State) (bytes : List Byte) : (s.setLowV bytes).faulted = s.faulted := rfl
@[simp] theorem State.setLowV_faultSpace (s : State) (bytes : List Byte) : (s.setLowV bytes).faultSpace = s.faultSpace := rfl
@[simp] theorem State.setLowV_faultValue (s : State) (bytes : List Byte) : (s.setLowV bytes).faultValue = s.faultValue := rfl
@[simp] theorem State.setLowV_faultPc (s : State) (bytes : List Byte) : (s.setLowV bytes).faultPc = s.faultPc := rfl
@[simp] theorem State.setLowV_draws (s : State) (bytes : List Byte) : (s.setLowV bytes).draws = s.draws := rfl

/-! goto -/

@[simp] theorem State.goto_V (s : State) (sel : PcSel) : (s.goto sel).V = s.V := rfl
@[simp] theorem State.goto_I (s : State) (sel : PcSel) : (s.goto sel).I = s.I := rfl
@[simp] theorem State.goto_pc (s : State) (sel : PcSel) : (s.goto sel).pc = nextPc s sel := rfl
@[simp] theorem State.goto_S (s : State) (sel : PcSel) : (s.goto sel).S = s.S := rfl
@[simp] theorem State.goto_sp (s : State) (sel : PcSel) : (s.goto sel).sp = s.sp := rfl
@[simp] theorem State.goto_DT (s : State) (sel : PcSel) : (s.goto sel).DT = s.DT := rfl
@[simp] theorem State.goto_ST (s : State) (sel : PcSel) : (s.goto sel).ST = s.ST := rfl
@[simp] theorem State.goto_key (s : State) (sel : PcSel) : (s.goto sel).key = s.key := rfl
@[simp] theorem State.goto_FB (s : State) (sel : PcSel) : (s.goto sel).FB = s.FB := rfl
@[simp] theorem State.goto_dirty (s : State) (sel : PcSel) : (s.goto sel).dirty = s.dirty := rfl
@[simp] theorem State.goto_mem (s : State) (sel : PcSel) : (s.goto sel).mem = s.mem := rfl
@[simp] theorem State.goto_loaded (s : State) (sel : PcSel) : (s.goto sel).loaded = s.loaded := rfl
@[simp] theorem State.goto_faulted (s : State) (sel : PcSel) : (s.goto sel).faulted = s.faulted := rfl
@[simp] theorem State.goto_faultSpace (s : State) (sel : PcSel) : (s.goto sel).faultSpace = s.faultSpace := rfl
@[simp] theorem State.goto_faultValue (s : State) (sel : PcSel) : (s.goto sel).faultValue = s.faultValue := rfl
@[simp] theorem State.goto_faultPc (s : State) (sel : PcSel) : (s.goto sel).faultPc = s.faultPc := rfl
@[simp] theorem State.goto_draws (s : State) (sel : PcSel) : (s.goto sel).draws = s.draws := rfl

/-! skipIf -/

@[simp] theorem State.skipIf_V (s : State) (c : Bool) : (s.skipIf c).V = s.V := rfl
@[simp] theorem State.skipIf_I (s : State) (c : Bool) : (s.skipIf c).I = s.I := rfl
@[simp] theorem State.skipIf_pc (s : State) (c : Bool) : (s.skipIf c).pc = nextPc s (if c then .inc4 else .inc2) := rfl
@[simp] theorem State.skipIf_S (s : State) (c : Bool) : (s.skipIf c).S = s.S := rfl
@[simp] theorem State.skipIf_sp (s : State) (c : Bool) : (s.skipIf c).sp = s.sp := rfl
@[simp] theorem State.skipIf_DT (s : State) (c : Bool) : (s.skipIf c).DT = s.DT := rfl
@[simp] theorem State.skipIf_ST (s : State) (c : Bool) : (s.skipIf c).ST = s.ST := rfl
@[simp] theorem State.skipIf_key (s : State) (c : Bool) : (s.skipIf c).key = s.key := rfl
@[simp] theorem State.skipIf_FB (s : State) (c : Bool) : (s.skipIf c).FB = s.FB := rfl
@[simp] theorem State.skipIf_dirty (s : State) (c : Bool) : (s.skipIf c).dirty = s.dirty := rfl
@[simp] theorem State.skipIf_mem (s : State) (c : Bool) : (s.skipIf c).mem = s.mem := rfl
@[simp] theorem State.skipIf_loaded (s : State) (c : Bool) : (s.skipIf c).loaded = s.loaded := rfl
@[simp] theorem State.skipIf_faulted (s : State) (c : Bool) : (s.skipIf c).faulted = s.faulted := rfl
@[simp] theorem State.skipIf_faultSpace (s : State) (c : Bool) : (s.skipIf c).faultSpace = s.faultSpace := rfl
@[simp] theorem State.skipIf_faultValue (s : State) (c : Bool) : (s.skipIf c).faultValue = s.faultValue := rfl
@[simp] theorem State.skipIf_faultPc (s : State) (c : Bool) : (s.skipIf c).faultPc = s.faultPc := rfl
@[simp] theorem State.skipIf_draws (s : State) (c : Bool) : (s.skipIf c).draws = s.draws := rfl

/-! setResultFlag -/

@[simp] theorem State.setResultFlag_V (s : State) (x : Reg) (r : Byte) (f : Bool) : (s.setResultFlag x r f).V = (s.V.set x.val r).set 15 (flagByte f) := rfl
@[simp] theorem State.setResultFlag_I (s : State) (x : Reg) (r : Byte) (f : Bool) : (s.setResultFlag x r f).I = s.I := rfl
@[simp] theorem State.setResultFlag_pc (s : State) (x : Reg) (r : Byte) (f : Bool) : (s.setResultFlag x r f).pc = s.pc := rfl
@[simp] theorem State.setResultFlag_S (s : State) (x : Reg) (r : Byte) (f : Bool) : (s.setResultFlag x r f).S = s.S := rfl
@[simp] theorem State.setResultFlag_sp (s : State) (x : Reg) (r : Byte) (f : Bool) : (s.setResultFlag x r f).sp = s.sp := rfl
@[simp] theorem State.setResultFlag_DT (s : State) (x : Reg) (r : Byte) (f : Bool) : (s.setResultFlag x r f).DT = s.DT := rfl
@[simp] theorem State.setResultFlag_ST (s : State) (x : Reg) (r : Byte) (f : Bool) : (s.setResultFlag x r f).ST = s.ST := rfl
@[simp] theorem State.setResultFlag_key (s : State) (x : Reg) (r : Byte) (f : Bool) : (s.setResultFlag x r f).key = s.key := rfl
@[simp] theorem State.setResultFlag_FB (s : State) (x : Reg) (r : Byte) (f : Bool) : (s.setResultFlag x r f).FB = s.FB := rfl
@[simp] theorem State.setResultFlag_dirty (s : State) (x : Reg) (r : Byte) (f : Bool) : (s.setResultFlag x r f).dirty = s.dirty := rfl
@[simp] theorem State.setResultFlag_mem (s : State) (x : Reg) (r : Byte) (f : Bool) : (s.setResultFlag x r f).mem = s.mem := rfl
@[simp] theorem State.setResultFlag_loaded (s : State) (x : Reg) (r : Byte) (f : Bool) : (s.setResultFlag x r f).loaded = s.loaded := rfl
@[simp] theorem State.setResultFlag_faulted (s : State) (x : Reg) (r : Byte) (f : Bool) : (s.setResultFlag x r f).faulted = s.faulted := rfl
@[simp] theorem State.setResultFlag_faultSpace (s : State) (x : Reg) (r : Byte) (f : Bool) : (s.setResultFlag x r f).faultSpace = s.faultSpace := rfl
@[simp] theorem State.setResultFlag_faultValue (s : State) (x : Reg) (r : Byte) (f : Bool) : (s.setResultFlag x r f).faultValue = s.faultValue := rfl
@[simp] theorem State.setResultFlag_faultPc (s : State) (x : Reg) (r : Byte) (f : Bool) : (s.setResultFlag x r f).faultPc = s.faultPc := rfl
@[simp] theorem State.setResultFlag_draws (s : State) (x : Reg) (r : Byte) (f : Bool) : (s.setResultFlag x r f).draws = s.draws := rfl

/-! clearScreen -/

@[simp] theorem clearScreen_V (s : State) : (clearScreen s).V = s.V := rfl
@[simp] theorem clearScreen_I (s : State) : (clearScreen s).I = s.I := rfl
@[simp] theorem clearScreen_pc (s : State) : (clearScreen s).pc = s.pc := rfl
@[simp] theorem clearScreen_S (s : State) : (clearScreen s).S = s.S := rfl
@[simp] theorem clearScreen_sp (s : State) : (clearScreen s).sp = s.sp := rfl
@[simp] theorem clearScreen_DT (s : State) : (clearScreen s).DT = s.DT := rfl
@[simp] theorem clearScreen_ST (s : State) : (clearScreen s).ST = s.ST := rfl
@[simp] theorem clearScreen_key (s : State) : (clearScreen s).key = s.key := rfl
@[simp] theorem clearScreen_FB (s : State) : (clearScreen s).FB = Framebuffer.blank := rfl
@[simp] theorem clearScreen_dirty (s : State) : (clearScreen s).dirty = true := rfl
@[simp] theorem clearScreen_mem (s : State) : (clearScreen s).mem = s.mem := rfl
@[simp] theorem clearScreen_loaded (s : State) : (clearScreen s).loaded = s.loaded := rfl
@[simp] theorem clearScreen_faulted (s : State) : (clearScreen s).faulted = s.faulted := rfl
@[simp] theorem clearScreen_faultSpace (s : State) : (clearScreen s).faultSpace = s.faultSpace := rfl
@[simp] theorem clearScreen_faultValue (s : State) : (clearScreen s).faultValue = s.faultValue := rfl
@[simp] theorem clearScreen_faultPc (s : State) : (clearScreen s).faultPc = s.faultPc := rfl
@[simp] theorem clearScreen_draws (s : State) : (clearScreen s).draws = s.draws := rfl

/-! markDirty -/

@[simp] theorem markDirty_V (s : State) : (markDirty s).V = s.V := rfl
@[simp] theorem markDirty_I (s : State) : (markDirty s).I = s.I := rfl
@[simp] theorem markDirty_pc (s : State) : (markDirty s).pc = s.pc := rfl
@[simp] theorem markDirty_S (s : State) : (markDirty s).S = s.S := rfl
@[simp] theorem markDirty_sp (s : State) : (markDirty s).sp = s.sp := rfl
@[simp] theorem markDirty_DT (s : State) : (markDirty s).DT = s.DT := rfl
@[simp] theorem markDirty_ST (s : State) : (markDirty s).ST = s.ST := rfl
@[simp] theorem markDirty_key (s : State) : (markDirty s).key = s.key := rfl
@[simp] theorem markDirty_FB (s : State) : (markDirty s).FB = s.FB := rfl
@[simp] theorem markDirty_dirty (s : State) : (markDirty s).dirty = true := rfl
@[simp] theorem markDirty_mem (s : State) : (markDirty s).mem = s.mem := rfl
@[simp] theorem markDirty_loaded (s : State) : (markDirty s).loaded = s.loaded := rfl
@[simp] theorem markDirty_faulted (s : State) : (markDirty s).faulted = s.faulted := rfl
@[simp] theorem markDirty_faultSpace (s : State) : (markDirty s).faultSpace = s.faultSpace := rfl
@[simp] theorem markDirty_faultValue (s : State) : (markDirty s).faultValue = s.faultValue := rfl
@[simp] theorem markDirty_faultPc (s : State) : (markDirty s).faultPc = s.faultPc := rfl
@[simp] theorem markDirty_draws (s : State) : (markDirty s).draws = s.draws := rfl

/-! tick -/

@[simp] theorem tick_V (s : State) : (tick s).V = s.V := rfl
@[simp] theorem tick_I (s : State) : (tick s).I = s.I := rfl
@[simp] theorem tick_pc (s : State) : (tick s).pc = s.pc := rfl
@[simp] theorem tick_S (s : State) : (tick s).S = s.S := rfl
@[simp] theorem tick_sp (s : State) : (tick s).sp = s.sp := rfl
@[simp] theorem tick_DT (s : State) : (tick s).DT = decay s.DT := rfl
@[simp] theorem tick_ST (s : State) : (tick s).ST = decay s.ST := rfl
@[simp] theorem tick_key (s : State) : (tick s).key = s.key := rfl
@[simp] theorem tick_FB (s : State) : (tick s).FB = s.FB := rfl
@[simp] theorem tick_dirty (s : State) : (tick s).dirty = s.dirty := rfl
@[simp] theorem tick_mem (s : State) : (tick s).mem = s.mem := rfl
@[simp] theorem tick_loaded (s : State) : (tick s).loaded = s.loaded := rfl
@[simp] theorem tick_faulted (s : State) : (tick s).faulted = s.faulted := rfl
@[simp] theorem tick_faultSpace (s : State) : (tick s).faultSpace = s.faultSpace := rfl
@[simp] theorem tick_faultValue (s : State) : (tick s).faultValue = s.faultValue := rfl
@[simp] theorem tick_faultPc (s : State) : (tick s).faultPc = s.faultPc := rfl
@[simp] theorem tick_draws (s : State) : (tick s).draws = s.draws := rfl

/-! skipUnknown -/

@[simp] theorem skipUnknown_V (s : State) : (skipUnknown s).V = s.V := rfl
@[simp] theorem skipUnknown_I (s : State) : (skipUnknown s).I = s.I := rfl
@[simp] theorem skipUnknown_pc (s : State) : (skipUnknown s).pc = s.pc + 2#16 := rfl
@[simp] theorem skipUnknown_S (s : State) : (skipUnknown s).S = s.S := rfl
@[simp] theorem skipUnknown_sp (s : State) : (skipUnknown s).sp = s.sp := rfl
@[simp] theorem skipUnknown_DT (s : State) : (skipUnknown s).DT = s.DT := rfl
@[simp] theorem skipUnknown_ST (s : State) : (skipUnknown s).ST = s.ST := rfl
@[simp] theorem skipUnknown_key (s : State) : (skipUnknown s).key = s.key := rfl
@[simp] theorem skipUnknown_FB (s : State) : (skipUnknown s).FB = s.FB := rfl
@[simp] theorem skipUnknown_dirty (s : State) : (skipUnknown s).dirty = s.dirty := rfl
@[simp] theorem skipUnknown_mem (s : State) : (skipUnknown s).mem = s.mem := rfl
@[simp] theorem skipUnknown_loaded (s : State) : (skipUnknown s).loaded = s.loaded := rfl
@[simp] theorem skipUnknown_faulted (s : State) : (skipUnknown s).faulted = s.faulted := rfl
@[simp] theorem skipUnknown_faultSpace (s : State) : (skipUnknown s).faultSpace = s.faultSpace := rfl
@[simp] theorem skipUnknown_faultValue (s : State) : (skipUnknown s).faultValue = s.faultValue := rfl
@[simp] theorem skipUnknown_faultPc (s : State) : (skipUnknown s).faultPc = s.faultPc := rfl
@[simp] theorem skipUnknown_draws (s : State) : (skipUnknown s).draws = s.draws := rfl

/-! enterFault: what the fault entry defines (60_exceptions.md R289). -/

@[simp] theorem enterFault_faulted (s : State) (r : Raise) : (enterFault s r).faulted = true := rfl
@[simp] theorem enterFault_faultSpace (s : State) (r : Raise) : (enterFault s r).faultSpace = r.space := rfl
@[simp] theorem enterFault_faultValue (s : State) (r : Raise) : (enterFault s r).faultValue = BitVec.ofNat 17 r.value := rfl
@[simp] theorem enterFault_faultPc (s : State) (r : Raise) : (enterFault s r).faultPc = s.pc := rfl
@[simp] theorem enterFault_draws (s : State) (r : Raise) : (enterFault s r).draws = s.draws + 1 := rfl
@[simp] theorem enterFault_mem (s : State) (r : Raise) : (enterFault s r).mem = Memory.ofFn (Config.faultMem s.draws) := rfl

/-! Reading a register. -/

/-- V[y] after V[x] <- b. -/
@[simp] theorem State.v_setV (s : State) (x y : Reg) (b : Byte) :
    (s.setV x b).v y = if y = x then b else s.v y := by
  simp only [State.v, State.setV_V, Vector.getElem_set, Fin.ext_iff]
  split <;> split <;> simp_all

/-- V[y] after a result and a flag: the flag wins at VF (10_state.md R22). -/
@[simp] theorem State.v_setResultFlag (s : State) (x y : Reg) (r : Byte) (f : Bool) :
    (s.setResultFlag x r f).v y = if y = regF then flagByte f else if y = x then r else s.v y := by
  simp only [State.setResultFlag, State.v_setV]

/-- V[y] after a block load: the bytes given, from V0 up, and the old values above. -/
@[simp] theorem State.v_setLowV (s : State) (bytes : List Byte) (y : Reg) :
    (s.setLowV bytes).v y = bytes.getD y.val (s.v y) := by
  simp [State.v]

@[simp] theorem State.v_setI (s : State) (a : Word) (y : Reg) : (s.setI a).v y = s.v y := rfl
@[simp] theorem State.v_goto (s : State) (sel : PcSel) (y : Reg) : (s.goto sel).v y = s.v y := rfl
@[simp] theorem State.v_skipIf (s : State) (c : Bool) (y : Reg) : (s.skipIf c).v y = s.v y := rfl
@[simp] theorem State.v_clearScreen (s : State) (y : Reg) : (clearScreen s).v y = s.v y := rfl
@[simp] theorem State.v_markDirty (s : State) (y : Reg) : (markDirty s).v y = s.v y := rfl
@[simp] theorem State.v_tick (s : State) (y : Reg) : (tick s).v y = s.v y := rfl

end Sys2Proof.Machine
end

