-- ==== Sys2Proof/Laws/Ops.lean ====
section
/-! SUPPORT. One lemma per shared operation that says once everything it can do; provers cite these and do not unfold. -/

namespace Sys2Proof.Machine

/-! Memory accessors (20_memory.md R72, R73). -/

theorem memRead_of_lt {m : Memory} {space : FaultSpace} {a : Nat} (h : a < memSize) :
    memRead m space a = .ok (m.get a) := if_pos h

theorem memRead_of_ge {m : Memory} {space : FaultSpace} {a : Nat} (h : memSize ≤ a) :
    memRead m space a = .error ⟨space, a⟩ := if_neg (Nat.not_lt.2 h)

/-- Everything a read can do. -/
theorem memRead_cases (m : Memory) (space : FaultSpace) (a : Nat) :
    (a < memSize ∧ memRead m space a = .ok (m.get a)) ∨
    (memSize ≤ a ∧ memRead m space a = .error ⟨space, a⟩) := by
  rcases Nat.lt_or_ge a memSize with h | h
  · exact .inl ⟨h, memRead_of_lt h⟩
  · exact .inr ⟨h, memRead_of_ge h⟩

theorem memWrite_of_inside {m : Memory} {a : Nat} {v : Byte} (h1 : glyphEnd ≤ a) (h2 : a < memSize) :
    memWrite m a v = .ok (m.set a v) := by
  rw [memWrite, if_neg (Nat.not_le.2 h2), if_neg (Nat.not_lt.2 h1)]

theorem memWrite_of_outside {m : Memory} {a : Nat} {v : Byte} (h : memSize ≤ a ∨ a < glyphEnd) :
    memWrite m a v = .error ⟨.memWrite, a⟩ := by
  unfold memWrite
  split
  · rfl
  · next h1 => rw [if_pos (h.resolve_left h1)]

/-- A span of reads inside memory gives the bytes in order. -/
theorem readSpan_of_le {m : Memory} {space : FaultSpace} {a n : Nat} (h : n = 0 ∨ a + n ≤ memSize) :
    readSpan m space a n = .ok ((List.range n).map (fun k => m.get (a + k))) := by
  induction n generalizing a with
  | zero => rfl
  | succ k ih =>
    have ha : a + (k + 1) ≤ memSize := by omega
    rw [readSpan, memRead_of_lt (by omega)]
    simp only [ih (a := a + 1) (by omega)]
    rw [List.range_succ_eq_map, List.map_cons, List.map_map]
    congr 2
    refine List.map_congr_left (fun j _ => ?_)
    show m.get (a + 1 + j) = m.get (a + (j + 1))
    congr 1
    omega

/-- A span of reads that leaves memory raises at the lowest failing address (60_exceptions.md R288). -/
theorem readSpan_of_gt {m : Memory} {space : FaultSpace} {a n : Nat} (h0 : n ≠ 0) (h : memSize < a + n) :
    readSpan m space a n = .error ⟨space, max a memSize⟩ := by
  induction n generalizing a with
  | zero => exact absurd rfl h0
  | succ k ih =>
    rcases memRead_cases m space a with ⟨ha, hr⟩ | ⟨ha, hr⟩
    · rw [readSpan, hr]
      have hk : k ≠ 0 := by omega
      simp only [ih (a := a + 1) hk (by omega)]
      congr 2
      omega
    · rw [readSpan, hr]
      rw [Nat.max_eq_left ha]

/-- A span of writes inside the writable region is the block write. -/
theorem writeSpan_of_inside {m : Memory} {a : Nat} {bytes : List Byte} (h1 : bytes = [] ∨ glyphEnd ≤ a)
    (h2 : bytes = [] ∨ a + bytes.length ≤ memSize) : writeSpan m a bytes = .ok (m.setAll a bytes) := by
  induction bytes generalizing m a with
  | nil => rfl
  | cons b rest ih =>
    have h3 : glyphEnd ≤ a := by simpa using h1
    have h4 : a + (rest.length + 1) ≤ memSize := by simpa using h2
    rw [writeSpan, memWrite_of_inside h3 (by omega)]
    exact ih (.inr (by omega)) (.inr (by omega))

/-- A span of writes that leaves the writable region raises at the lowest failing address (60_exceptions.md R288). -/
theorem writeSpan_of_outside {m : Memory} {a : Nat} {bytes : List Byte} (h0 : bytes ≠ [])
    (h : a < glyphEnd ∨ memSize < a + bytes.length) :
    writeSpan m a bytes = .error ⟨.memWrite, if a < glyphEnd then a else max a memSize⟩ := by
  induction bytes generalizing m a with
  | nil => exact absurd rfl h0
  | cons b rest ih =>
    by_cases hg : a < glyphEnd
    · rw [writeSpan, memWrite_of_outside (.inr hg), if_pos hg]
    · rw [if_neg hg]
      have h4 : memSize < a + (rest.length + 1) := by simpa [hg] using h
      rcases Nat.lt_or_ge a memSize with ha | ha
      · rw [writeSpan, memWrite_of_inside (Nat.not_lt.1 hg) ha]
        have hr : rest ≠ [] := by rintro rfl; simp at h4; omega
        show writeSpan (m.set a b) (a + 1) rest = _
        rw [ih hr (.inr (by omega)), if_neg (by omega)]
        congr 2
        omega
      · rw [writeSpan, memWrite_of_outside (.inl ha), Nat.max_eq_left ha]

/-- When a span of writes completes, it was inside the writable region and is the block write. -/
theorem writeSpan_ok {m m' : Memory} {a : Nat} {bytes : List Byte} (h : writeSpan m a bytes = .ok m') :
    m' = m.setAll a bytes ∧ (bytes = [] ∨ glyphEnd ≤ a ∧ a + bytes.length ≤ memSize) := by
  rcases eq_or_ne bytes [] with rfl | h0
  · exact ⟨(Except.ok.inj h).symm, .inl rfl⟩
  · by_cases hout : a < glyphEnd ∨ memSize < a + bytes.length
    · rw [writeSpan_of_outside h0 hout] at h
      exact nomatch h
    · rw [writeSpan_of_inside (.inr (by omega)) (.inr (by omega))] at h
      exact ⟨(Except.ok.inj h).symm, .inr (by omega)⟩

/-- A store at I inside the writable region. -/
theorem storeAtI_of_inside {s : State} {bytes : List Byte} (h1 : bytes = [] ∨ glyphEnd ≤ s.I.toNat)
    (h2 : bytes = [] ∨ s.I.toNat + bytes.length ≤ memSize) :
    storeAtI s bytes = .ok { s with mem := s.mem.setAll s.I.toNat bytes } := by
  rw [storeAtI, writeSpan_of_inside h1 h2]

/-- A store at I that leaves the writable region raises at the lowest failing address. -/
theorem storeAtI_of_outside {s : State} {bytes : List Byte} (h0 : bytes ≠ [])
    (h : s.I.toNat < glyphEnd ∨ memSize < s.I.toNat + bytes.length) :
    storeAtI s bytes =
      .error ⟨.memWrite, if s.I.toNat < glyphEnd then s.I.toNat else max s.I.toNat memSize⟩ := by
  rw [storeAtI, writeSpan_of_outside h0 h]

/-- When a store at I completes, it was inside the writable region, and each byte is the stored one where the store
covers it and the old one elsewhere; nothing but memory has changed. -/
theorem storeAtI_ok {s t : State} {bytes : List Byte} (hm : s.mem.wf) (h : storeAtI s bytes = .ok t) :
    (bytes = [] ∨ glyphEnd ≤ s.I.toNat ∧ s.I.toNat + bytes.length ≤ memSize) ∧
    (∀ a, t.mem.get a = byteAfterStore s bytes a) ∧ t = { s with mem := t.mem } := by
  unfold storeAtI at h
  split at h
  · exact nomatch h
  · next m hw =>
    obtain ⟨rfl, hin⟩ := writeSpan_ok hw
    obtain rfl := Except.ok.inj h
    refine ⟨hin, fun a => ?_, rfl⟩
    show (s.mem.setAll s.I.toNat bytes).get a = _
    unfold byteAfterStore
    rcases hin with rfl | hin
    · simp [Memory.setAll]
    · rw [Memory.get_setAll hm bytes hin.2]
      by_cases h1 : s.I.toNat ≤ a
      · by_cases h2 : a - s.I.toNat < bytes.length <;> simp [h1, h2]
      · simp [h1]

/-- The bytes a storing instruction stores are those its meaning computes. -/
theorem bytes_of_stores {i : Instr} {s : State} {bytes : List Byte} (h : Stores i s bytes) :
    (∃ x, i = .ldB x ∧ bytes = bcdDigits (s.v x)) ∨ (∃ x, i = .stRegs x ∧ bytes = lowRegisters s x) := by
  rcases h with ⟨x, hi, hb⟩ | ⟨x, hi, hl, hb⟩
  · refine .inl ⟨x, hi, List.map_injective_iff.2 BitVec.toNat_injective ?_⟩
    have := (s.v x).isLt
    rw [hb]
    simp only [bcdDigits, List.map_cons, List.map_nil, BitVec.toNat_ofNat]
    congr 1 <;> [skip; congr 1 <;> [skip; congr 1]] <;> omega
  · refine .inr ⟨x, hi, List.ext_getElem? fun k => ?_⟩
    by_cases hk : k ≤ x.val
    · have hr := hb ⟨k, by omega⟩ hk
      have hlen : k < (lowRegisters s x).length := by simp [lowRegisters]; omega
      rw [List.getElem?_eq_getElem hlen, hr]
      simp [lowRegisters, State.v]
    · rw [List.getElem?_eq_none (by omega), List.getElem?_eq_none (by simp [lowRegisters]; omega)]

/-- A load at I inside memory. -/
theorem loadAtI_of_le {s : State} {n : Nat} (h : n = 0 ∨ s.I.toNat + n ≤ memSize) :
    loadAtI s n = .ok ((List.range n).map (fun k => s.mem.get (s.I.toNat + k))) :=
  readSpan_of_le h

/-- A load at I that leaves memory raises at the lowest failing address. -/
theorem loadAtI_of_gt {s : State} {n : Nat} (h0 : n ≠ 0) (h : memSize < s.I.toNat + n) :
    loadAtI s n = .error ⟨.memRead, max s.I.toNat memSize⟩ :=
  readSpan_of_gt h0 h

/-! The call stack (10_state.md R30). -/

theorem push_of_lt {s : State} {v : Word} (h : s.sp.val < 16) :
    push s v = .ok { s with S := s.S.set s.sp.val v h, sp := ⟨s.sp.val + 1, by omega⟩ } := by
  rw [push, dif_pos (by simpa [stackDepth] using h)]

theorem push_of_full {s : State} {v : Word} (h : s.sp.val = 16) : push s v = .error ⟨.stackOverflow, 16⟩ := by
  rw [push, dif_neg (by simp [stackDepth, h]), h]

theorem pop_of_pos {s : State} (h : s.sp.val ≠ 0) :
    pop s = .ok (s.S[s.sp.val - 1]'(by omega), { s with sp := ⟨s.sp.val - 1, by omega⟩ }) := by
  rw [pop, dif_neg h]

theorem pop_of_empty {s : State} (h : s.sp.val = 0) : pop s = .error ⟨.stackUnderflow, 0⟩ := by
  rw [pop, dif_pos h, h]

/-! Keys (44_input_timer.md R249, R253). -/

theorem keyAt_of_lt {s : State} {v : Byte} (h : v.toNat < 16) : keyAt s v = .ok s.key[v.toNat] := by
  rw [keyAt, dif_pos h]

theorem keyAt_of_ge {s : State} {v : Byte} (h : 16 ≤ v.toNat) : keyAt s v = .error ⟨.keyIndex, v.toNat⟩ := by
  rw [keyAt, dif_neg (Nat.not_lt.2 h)]

/-- The key found is held, and no lower one is. -/
theorem lowestKey_some {s : State} {k : Reg} (h : lowestKey s = some k) :
    s.key[k.val] = true ∧ ∀ j : Reg, j < k → s.key[j.val] = false := by
  obtain ⟨hk, as, bs, hsplit, has⟩ := List.find?_eq_some_iff_append.1 h
  refine ⟨hk, fun j hj => ?_⟩
  have hsorted : (as ++ k :: bs).Pairwise (· < ·) := hsplit ▸ List.pairwise_lt_finRange 16
  have hj' : j ∈ as ++ k :: bs := hsplit ▸ List.mem_finRange j
  rcases List.mem_append.1 hj' with h1 | h1
  · simpa using has j h1
  · exfalso
    rcases List.mem_cons.1 h1 with h2 | h2
    · exact absurd (h2 ▸ hj) (lt_irrefl _)
    · have := (List.pairwise_cons.1 (List.pairwise_append.1 hsorted).2.1).1 j h2
      exact absurd (lt_trans hj this) (lt_irrefl _)

/-- No key is found exactly when none is held. -/
theorem lowestKey_none {s : State} : lowestKey s = none ↔ ∀ j : Reg, s.key[j.val] = false := by
  rw [lowestKey, List.find?_eq_none]
  simp

/-! Timers (44_input_timer.md R260). -/

/-- One decrement, saturating at 0. -/
theorem decay_toNat (t : Byte) : (decay t).toNat = t.toNat - 1 := by
  unfold decay
  split
  · have := t.isLt
    rw [BitVec.toNat_sub]
    simp
    omega
  · omega

/-! The framebuffer (43_draw.md R234). -/

theorem Framebuffer.cell_blank (k : Nat) : Framebuffer.blank.cell k = false := by
  unfold Framebuffer.cell Framebuffer.blank
  split <;> simp

/-- A toggle changes one cell, and there are 2048 of them. -/
theorem Framebuffer.cell_toggle (fb : Framebuffer) (k j : Nat) (hk : k < 2048) :
    (fb.toggle k).cell j = if j = k then !fb.cell j else fb.cell j := by
  have hrow : k / 64 < 32 := by omega
  unfold Framebuffer.toggle Framebuffer.cell
  rw [dif_pos hrow]
  by_cases hj : j / 64 < 32
  · simp only [dif_pos hj]
    rw [Vector.getElem_set]
    by_cases hd : k / 64 = j / 64
    · have hlt : j % 64 < 64 := Nat.mod_lt _ (by omega)
      simp only [hd, if_true, BitVec.getLsbD_xor, BitVec.getLsbD_twoPow]
      by_cases hjk : j = k
      · subst hjk; simp [hlt]
      · have hm : k % 64 ≠ j % 64 := by omega
        simp [hjk, hm]
    · have hjk : j ≠ k := by rintro rfl; exact hd rfl
      simp [hd, hjk]
  · have hjk : j ≠ k := by rintro rfl; exact hj hrow
    simp [hj, hjk]

/-- Framebuffers with the same 2048 cells are equal. -/
theorem Framebuffer.ext_cells {fb gb : Framebuffer} (h : ∀ k, k < 2048 → fb.cell k = gb.cell k) : fb = gb := by
  apply Vector.ext
  intro i hi
  apply BitVec.eq_of_getLsbD_eq
  intro j hj
  have := h (64 * i + j) (by omega)
  have hd : (64 * i + j) / 64 = i := by omega
  have hm : (64 * i + j) % 64 = j := by omega
  simpa [Framebuffer.cell, hd, hm, hi] using this

/-- Every index a sprite bit lands on is a cell of the framebuffer (43_draw.md R230). -/
theorem pixelIndex_lt (wrap : DrawWrap) (px py : Nat) : pixelIndex wrap px py < 2048 := by
  cases wrap <;> simp only [pixelIndex] <;> omega

/-! Instruction ends and the step. -/

/-- How an instruction that may raise ends. -/
theorem settle_cases {s t : State} {r : Except Raise State} (h : settle s r = .next t) :
    r = .ok t ∨ ∃ e, r = .error e ∧ t = enterFault s e := by
  cases r with
  | ok u => exact .inl (by simpa [settle] using h)
  | error e => exact .inr ⟨e, rfl, by simpa [settle] using h.symm⟩

/-- A completed operation ends in what the instruction makes of it. -/
@[simp] theorem settle_map_ok {α : Type} (s : State) (a : α) (f : α → State) :
    settle s ((Except.ok a : Except Raise α).map f) = .next (f a) := rfl

/-- A raise ends in the fault entry. -/
@[simp] theorem settle_map_error {α : Type} (s : State) (r : Raise) (f : α → State) :
    settle s ((Except.error r : Except Raise α).map f) = .next (enterFault s r) := rfl

/-- V0..Vx are x + 1 bytes. -/
@[simp] theorem length_lowRegisters (s : State) (x : Reg) : (lowRegisters s x).length = x.val + 1 := by
  simp [lowRegisters]

/-- Byte k of V0..Vx is V[k]. -/
theorem getElem_lowRegisters (s : State) (x r : Reg) (h : r.val < (lowRegisters s x).length) :
    (lowRegisters s x)[r.val] = s.v r := by
  simp [lowRegisters, State.v]

/-- The fetch inside memory gives the big-endian word (30_encoding.md R101). -/
theorem fetchWord_of_le {s : State} (h : s.pc.toNat ≤ 0xFFE) :
    fetchWord s = .ok (wordOfBytes (s.mem.get s.pc.toNat) (s.mem.get (s.pc.toNat + 1))) := by
  rw [fetchWord, memRead_of_lt (by simp only [memSize]; omega), memRead_of_lt (by simp only [memSize]; omega)]

/-- The fetch outside memory raises at the first failing address (30_encoding.md R101). -/
theorem fetchWord_of_gt {s : State} (h : 0xFFE < s.pc.toNat) :
    fetchWord s = .error ⟨.memFetch, max s.pc.toNat 0x1000⟩ := by
  unfold fetchWord
  rcases memRead_cases s.mem .memFetch s.pc.toNat with ⟨ha, hr⟩ | ⟨ha, hr⟩
  · rw [hr]
    simp only [memSize] at ha
    rw [memRead_of_ge (by simp only [memSize]; omega)]
    show Except.error _ = Except.error _
    congr 2
    omega
  · rw [hr]
    simp only [memSize] at ha
    show Except.error _ = Except.error _
    congr 2
    omega

/-- The end of a step on this hardware: a faulted state is left alone, any other ticks. -/
theorem endStep_eq (s : State) : endStep s = if s.faulted then s else tick s := rfl

/-- Everything a step that answers a next state can have done (10_state.md R50). -/
theorem step_cases {s t : State} (h : step s = .next t) :
    s.faulted = false ∧ s.loaded = true ∧
    ((∃ r, fetchWord s = .error r ∧ t = enterFault s r) ∨
     ∃ w, fetchWord s = .ok w ∧
      ((∃ e, decode w = .error e ∧ t = endStep (skipUnknown s)) ∨
       ∃ i u, decode w = .ok i ∧ exec i s = .next u ∧ t = endStep u)) := by
  unfold step at h
  split at h
  · exact nomatch h
  · next hf =>
    split at h
    · exact nomatch h
    · next hl =>
      refine ⟨by simpa using hf, by simpa using hl, ?_⟩
      cases hw : fetchWord s with
      | error r =>
        rw [hw] at h
        exact .inl ⟨r, rfl, by simpa using h.symm⟩
      | ok w =>
        rw [hw] at h
        refine .inr ⟨w, rfl, ?_⟩
        cases hd : decode w with
        | error e =>
          simp only [hd] at h
          exact .inl ⟨e, rfl, by simpa using h.symm⟩
        | ok i =>
          simp only [hd] at h
          cases he : exec i s with
          | next u =>
            rw [he] at h
            exact .inr ⟨i, u, rfl, he, by simpa [finishStep] using h.symm⟩
          | fault f => exact nomatch f
          | refused r =>
            rw [he] at h
            exact absurd h (by simp [finishStep])

end Sys2Proof.Machine
end

