-- ==== Sys2Proof/Laws/PerInstr.lean ====
section
/-! SUPPORT. One fact per constructor: the word of an instruction has the literal bits its row of 30_encoding.md R120 gives it. -/

namespace Sys2Proof.Laws

/-- Mask and match of the row of an instruction (30_encoding.md R120). -/
def tableBits (i : Instr) : Word × Word :=
  match i with
  | .cls => (0xFFFF#16, 0x00E0#16)
  | .ret => (0xFFFF#16, 0x00EE#16)
  | .sys _ => (0xF000#16, 0x0000#16)
  | .jp _ => (0xF000#16, 0x1000#16)
  | .call _ => (0xF000#16, 0x2000#16)
  | .seImm _ _ => (0xF000#16, 0x3000#16)
  | .sneImm _ _ => (0xF000#16, 0x4000#16)
  | .seReg _ _ => (0xF00F#16, 0x5000#16)
  | .sneReg _ _ => (0xF00F#16, 0x9000#16)
  | .jpV0 _ => (0xF000#16, 0xB000#16)
  | .ldImm _ _ => (0xF000#16, 0x6000#16)
  | .addImm _ _ => (0xF000#16, 0x7000#16)
  | .ldReg _ _ => (0xF00F#16, 0x8000#16)
  | .or _ _ => (0xF00F#16, 0x8001#16)
  | .and _ _ => (0xF00F#16, 0x8002#16)
  | .xor _ _ => (0xF00F#16, 0x8003#16)
  | .addReg _ _ => (0xF00F#16, 0x8004#16)
  | .sub _ _ => (0xF00F#16, 0x8005#16)
  | .shr _ _ => (0xF00F#16, 0x8006#16)
  | .subn _ _ => (0xF00F#16, 0x8007#16)
  | .shl _ _ => (0xF00F#16, 0x800E#16)
  | .rnd _ _ => (0xF000#16, 0xC000#16)
  | .ldI _ => (0xF000#16, 0xA000#16)
  | .addI _ => (0xF0FF#16, 0xF01E#16)
  | .ldF _ => (0xF0FF#16, 0xF029#16)
  | .ldB _ => (0xF0FF#16, 0xF033#16)
  | .stRegs _ => (0xF0FF#16, 0xF055#16)
  | .ldRegs _ => (0xF0FF#16, 0xF065#16)
  | .drw _ _ _ => (0xF000#16, 0xD000#16)
  | .skp _ => (0xF0FF#16, 0xE09E#16)
  | .sknp _ => (0xF0FF#16, 0xE0A1#16)
  | .ldK _ => (0xF0FF#16, 0xF00A#16)
  | .ldVxDt _ => (0xF0FF#16, 0xF007#16)
  | .ldDt _ => (0xF0FF#16, 0xF015#16)
  | .ldSt _ => (0xF0FF#16, 0xF018#16)

/-- The word of the instruction fits its row: `(w AND mask) = match` (30_encoding.md R107). -/
def TablePattern.Statement (i : Instr) : Prop :=
  encode i &&& (tableBits i).1 = (tableBits i).2

namespace TablePattern

theorem cls : Statement .cls :=
  by unfold Statement; decide

theorem ret : Statement .ret :=
  by unfold Statement; decide

theorem sys (nnn : Imm12) : Statement (.sys nnn) :=
  (encNNN_and_class 0x0#4 nnn).trans rfl

theorem jp (nnn : Imm12) : Statement (.jp nnn) :=
  (encNNN_and_class 0x1#4 nnn).trans rfl

theorem call (nnn : Imm12) : Statement (.call nnn) :=
  (encNNN_and_class 0x2#4 nnn).trans rfl

theorem seImm (x : Reg) (nn : Byte) : Statement (.seImm x nn) :=
  (encXNN_and_class 0x3#4 x nn).trans rfl

theorem sneImm (x : Reg) (nn : Byte) : Statement (.sneImm x nn) :=
  (encXNN_and_class 0x4#4 x nn).trans rfl

theorem seReg (x : Reg) (y : Reg) : Statement (.seReg x y) :=
  (encXYN_and_function 0x5#4 x y 0x0#4).trans rfl

theorem sneReg (x : Reg) (y : Reg) : Statement (.sneReg x y) :=
  (encXYN_and_function 0x9#4 x y 0x0#4).trans rfl

theorem jpV0 (nnn : Imm12) : Statement (.jpV0 nnn) :=
  (encNNN_and_class 0xB#4 nnn).trans rfl

theorem ldImm (x : Reg) (nn : Byte) : Statement (.ldImm x nn) :=
  (encXNN_and_class 0x6#4 x nn).trans rfl

theorem addImm (x : Reg) (nn : Byte) : Statement (.addImm x nn) :=
  (encXNN_and_class 0x7#4 x nn).trans rfl

theorem ldReg (x : Reg) (y : Reg) : Statement (.ldReg x y) :=
  (encXYN_and_function 0x8#4 x y 0x0#4).trans rfl

theorem or (x : Reg) (y : Reg) : Statement (.or x y) :=
  (encXYN_and_function 0x8#4 x y 0x1#4).trans rfl

theorem and (x : Reg) (y : Reg) : Statement (.and x y) :=
  (encXYN_and_function 0x8#4 x y 0x2#4).trans rfl

theorem xor (x : Reg) (y : Reg) : Statement (.xor x y) :=
  (encXYN_and_function 0x8#4 x y 0x3#4).trans rfl

theorem addReg (x : Reg) (y : Reg) : Statement (.addReg x y) :=
  (encXYN_and_function 0x8#4 x y 0x4#4).trans rfl

theorem sub (x : Reg) (y : Reg) : Statement (.sub x y) :=
  (encXYN_and_function 0x8#4 x y 0x5#4).trans rfl

theorem shr (x : Reg) (y : Reg) : Statement (.shr x y) :=
  (encXYN_and_function 0x8#4 x y 0x6#4).trans rfl

theorem subn (x : Reg) (y : Reg) : Statement (.subn x y) :=
  (encXYN_and_function 0x8#4 x y 0x7#4).trans rfl

theorem shl (x : Reg) (y : Reg) : Statement (.shl x y) :=
  (encXYN_and_function 0x8#4 x y 0xE#4).trans rfl

theorem rnd (x : Reg) (nn : Byte) : Statement (.rnd x nn) :=
  (encXNN_and_class 0xC#4 x nn).trans rfl

theorem ldI (nnn : Imm12) : Statement (.ldI nnn) :=
  (encNNN_and_class 0xA#4 nnn).trans rfl

theorem addI (x : Reg) : Statement (.addI x) :=
  (encXNN_and_low 0xF#4 x 0x1E#8).trans rfl

theorem ldF (x : Reg) : Statement (.ldF x) :=
  (encXNN_and_low 0xF#4 x 0x29#8).trans rfl

theorem ldB (x : Reg) : Statement (.ldB x) :=
  (encXNN_and_low 0xF#4 x 0x33#8).trans rfl

theorem stRegs (x : Reg) : Statement (.stRegs x) :=
  (encXNN_and_low 0xF#4 x 0x55#8).trans rfl

theorem ldRegs (x : Reg) : Statement (.ldRegs x) :=
  (encXNN_and_low 0xF#4 x 0x65#8).trans rfl

theorem drw (x : Reg) (y : Reg) (n : Nibble) : Statement (.drw x y n) :=
  (encXYN_and_class 0xD#4 x y n).trans rfl

theorem skp (x : Reg) : Statement (.skp x) :=
  (encXNN_and_low 0xE#4 x 0x9E#8).trans rfl

theorem sknp (x : Reg) : Statement (.sknp x) :=
  (encXNN_and_low 0xE#4 x 0xA1#8).trans rfl

theorem ldK (x : Reg) : Statement (.ldK x) :=
  (encXNN_and_low 0xF#4 x 0x0A#8).trans rfl

theorem ldVxDt (x : Reg) : Statement (.ldVxDt x) :=
  (encXNN_and_low 0xF#4 x 0x07#8).trans rfl

theorem ldDt (x : Reg) : Statement (.ldDt x) :=
  (encXNN_and_low 0xF#4 x 0x15#8).trans rfl

theorem ldSt (x : Reg) : Statement (.ldSt x) :=
  (encXNN_and_low 0xF#4 x 0x18#8).trans rfl

end TablePattern

end Sys2Proof.Laws
end

