-- ==== Sys2Proof/Tests/Slice0.lean ====
section
/-! SUPPORT. Tests: ill-formed terms, words written out from 30_encoding.md, single steps whose expected results are the
vectors of 95_test_vectors.md (named in each comment) or a rule's own example, and a witness for every statement with
hypotheses. -/

namespace Sys2Proof.Tests

open Machine

/-! Well-formedness. -/

/-- A SYS whose word is CLS has no word of its own (30_encoding.md R107). -/
theorem test_wf_refuses_sys_0E0 : (Instr.sys 0x0E0#12).wf = false := by decide
/-- A SYS whose word is RET has no word of its own. -/
theorem test_wf_refuses_sys_0EE : (Instr.sys 0x0EE#12).wf = false := by decide
/-- The neighbour is a SYS (L2-CF CF-2). -/
theorem test_wf_admits_sys_0E1 : (Instr.sys 0x0E1#12).wf = true := by decide

/-! Words written out bit by bit from the patterns of 30_encoding.md R120, one for each constructor. -/

theorem test_decode_control :
    decodeOp 0b0000000011100000#16 = some .cls ∧ decodeOp 0b0000000011101110#16 = some .ret ∧
    decodeOp 0b0000000100100011#16 = some (.sys 0x123#12) ∧ decodeOp 0b0001001000000100#16 = some (.jp 0x204#12) ∧
    decodeOp 0b0010101100001011#16 = some (.call 0xB0B#12) ∧ decodeOp 0b0011101000000101#16 = some (.seImm 10 5#8) ∧
    decodeOp 0b0100001100010001#16 = some (.sneImm 3 0x11#8) ∧ decodeOp 0b0101000100100000#16 = some (.seReg 1 2) ∧
    decodeOp 0b1001000100100000#16 = some (.sneReg 1 2) ∧
    decodeOp 0b1011001100000000#16 = some (.jpV0 0x300#12) := by decide

theorem test_decode_alu :
    decodeOp 0b0110101000000101#16 = some (.ldImm 10 5#8) ∧ decodeOp 0b0111000100000010#16 = some (.addImm 1 2#8) ∧
    decodeOp 0b1000000100100000#16 = some (.ldReg 1 2) ∧ decodeOp 0b1000000100100001#16 = some (.or 1 2) ∧
    decodeOp 0b1000000100100010#16 = some (.and 1 2) ∧ decodeOp 0b1000000100100011#16 = some (.xor 1 2) ∧
    decodeOp 0b1000000100100100#16 = some (.addReg 1 2) ∧ decodeOp 0b1000000100100101#16 = some (.sub 1 2) ∧
    decodeOp 0b1000000100100110#16 = some (.shr 1 2) ∧ decodeOp 0b1000000100100111#16 = some (.subn 1 2) ∧
    decodeOp 0b1000000100101110#16 = some (.shl 1 2) ∧
    decodeOp 0b1100001100001111#16 = some (.rnd 3 0x0F#8) := by decide

theorem test_decode_memory_and_draw :
    decodeOp 0b1010001100000000#16 = some (.ldI 0x300#12) ∧ decodeOp 0b1111001000011110#16 = some (.addI 2) ∧
    decodeOp 0b1111101000101001#16 = some (.ldF 10) ∧ decodeOp 0b1111000000110011#16 = some (.ldB 0) ∧
    decodeOp 0b1111001101010101#16 = some (.stRegs 3) ∧ decodeOp 0b1111001001100101#16 = some (.ldRegs 2) ∧
    decodeOp 0b1101000100100101#16 = some (.drw 1 2 5#4) := by decide

theorem test_decode_input :
    decodeOp 0b1110010110011110#16 = some (.skp 5) ∧ decodeOp 0b1110010110100001#16 = some (.sknp 5) ∧
    decodeOp 0b1111001000001010#16 = some (.ldK 2) ∧ decodeOp 0b1111000100000111#16 = some (.ldVxDt 1) ∧
    decodeOp 0b1111000000010101#16 = some (.ldDt 0) ∧ decodeOp 0b1111000000011000#16 = some (.ldSt 0) := by decide

/-- L2-DEC: the unknown words, by name. -/
theorem test_decode_unknown :
    decode 0x5121#16 = .error (.unknownOpcode 0x5121#16) ∧ decode 0x8008#16 = .error (.unknownOpcode 0x8008#16) ∧
    decode 0x9121#16 = .error (.unknownOpcode 0x9121#16) ∧ decode 0xE000#16 = .error (.unknownOpcode 0xE000#16) ∧
    decode 0xF000#16 = .error (.unknownOpcode 0xF000#16) := by decide

/-- Bytes are big-endian and two make an instruction; one byte is none (20_memory.md R75, 30_encoding.md R100). -/
theorem test_decode_bytes :
    decodeBytes [0x12#8, 0x04#8, 0xFF#8] = .ok (.jp 0x204#12, [0xFF#8]) ∧
    decodeBytes [0x12#8] = .error .truncated ∧ decodeTableWord 16 0x6A05 = some (.ldImm 10 5#8) := by decide

/-! Single steps from pc = 0x200 (the conventions of 95_test_vectors.md). -/

/-- The construction state with a word loaded at 0x200. -/
def boot (w : Nat) : State :=
  State.reset.withFetchWord 16 w

/-- Registers set by the harness. -/
def withV (l : List (Reg × Byte)) (s : State) : State :=
  l.foldl (fun s p => s.setV p.1 p.2) s

/-- One step, if it answers a next state. -/
def ran (s : State) : Option State :=
  match step s with
  | .next t => some t
  | .fault _ => none
  | .refused _ => none

/-- V0, VF and pc after one step. -/
def v0fPc (s : State) : Option (Byte × Byte × Word) :=
  (ran s).map (fun t => (t.v 0, t.v regF, t.pc))

/-- The fault a step ends in, if it does. -/
def faultOf (s : State) : Option (FaultSpace × Nat × Word) :=
  (ran s).bind (fun t => if t.faulted then some (t.faultSpace, t.faultValue.toNat, t.faultPc) else none)

/-- L1-1. -/
theorem test_add_carry : v0fPc (withV [(0, 0x12#8), (1, 0xFF#8)] (boot 0x8014)) = some (0x11#8, 1#8, 0x202#16) := by
  decide
/-- ALU-3: x = 15 keeps the flag. -/
theorem test_add_into_vf :
    (ran (withV [(15, 0xFF#8), (1, 0x02#8)] (boot 0x8F14))).map (fun t => t.v regF) = some 1#8 := by decide
/-- L1-2. -/
theorem test_sub_borrow : v0fPc (withV [(0, 0x10#8), (1, 0x22#8)] (boot 0x8015)) = some (0xEE#8, 0#8, 0x202#16) := by
  decide
/-- ALU-5: equality counts as no borrow. -/
theorem test_sub_equal : v0fPc (withV [(0, 5#8), (1, 5#8)] (boot 0x8015)) = some (0#8, 1#8, 0x202#16) := by decide
/-- ALU-7. -/
theorem test_subn : v0fPc (withV [(0, 0x11#8), (1, 0xAA#8)] (boot 0x8017)) = some (0x99#8, 1#8, 0x202#16) := by decide

/-- L1-4: with x = y the source register does not matter. -/
theorem test_shr_same_register : v0fPc (withV [(0, 0xFF#8)] (boot 0x8006)) = some (0x7F#8, 1#8, 0x202#16) := by
  have h : ∀ src : ShiftSrc, ∀ s : State, shiftOperandWith src s 0 0 = s.v 0 := by intro src s; cases src <;> rfl
  have hs : ∀ s : State, shiftOperand s 0 0 = s.v 0 := h Config.shiftSrc
  have hx : step (withV [(0, 0xFF#8)] (boot 0x8006)) =
      finishStep (execShr 0 0 (withV [(0, 0xFF#8)] (boot 0x8006))) := rfl
  unfold v0fPc ran
  rw [hx]
  unfold execShr
  rw [hs]
  decide

/-- ALU-9, ALU-10: the shifted register under each SHIFT_SRC, VX and VY. -/
theorem test_shift_source :
    shiftOperandWith .vx (withV [(0, 0x02#8), (1, 0xFF#8)] State.reset) 0 1 = 0x02#8 ∧
    shiftOperandWith .vy (withV [(0, 0x02#8), (1, 0xFF#8)] State.reset) 0 1 = 0xFF#8 := by decide
/-- R180's example: 0x81 gives 0x02 and flag 1. -/
theorem test_shl_value : (0x81#8 <<< 1, highBitOut 0x81#8) = (0x02#8, true) := by decide
/-- ALU-14: 7xnn wraps and leaves VF. -/
theorem test_add_imm : v0fPc (withV [(0, 1#8), (15, 7#8)] (boot 0x70FF)) = some (0#8, 7#8, 0x202#16) := by decide
/-- ALU-15. -/
theorem test_ld_imm : (ran (boot 0x6A05)).map (fun t => (t.v 10, t.pc)) = some (5#8, 0x202#16) := by decide
/-- ALU-16. -/
theorem test_ld_reg : v0fPc (withV [(1, 0x42#8)] (boot 0x8010)) = some (0x42#8, 0#8, 0x202#16) := by decide
/-- ALU-17: OR leaves VF. -/
theorem test_or :
    v0fPc (withV [(0, 0xF0#8), (1, 0x0F#8), (15, 9#8)] (boot 0x8011)) = some (0xFF#8, 9#8, 0x202#16) := by decide
/-- ALU-18. -/
theorem test_and : v0fPc (withV [(0, 0xF0#8), (1, 0x3C#8)] (boot 0x8012)) = some (0x30#8, 0#8, 0x202#16) := by decide
/-- ALU-19. -/
theorem test_xor : v0fPc (withV [(0, 0xFF#8), (1, 0x0F#8)] (boot 0x8013)) = some (0xF0#8, 0#8, 0x202#16) := by decide
/-- ALU-22: a zero mask gives 0 whatever the draw; the draw is used up. -/
theorem test_rnd_zero_mask : (ran (withV [(3, 7#8)] (boot 0xC300))).map (fun t => (t.pc, t.draws)) = some (0x202#16, 1) := by
  decide

/-- CF-1. -/
theorem test_sys : (ran (boot 0x0123)).map (fun t => (t.pc, t.sp.val)) = some (0x202#16, 0) := by decide
/-- CF-3. -/
theorem test_cls :
    (ran { boot 0x00E0 with FB := State.reset.FB.toggle 5 }).map (fun t => (t.FB.cell 5, t.dirty, t.pc)) =
      some (false, true, 0x202#16) := by decide
/-- CF-4. -/
theorem test_jp : (ran (boot 0x1204)).map (fun t => t.pc) = some 0x204#16 := by decide
/-- L1-6, step 1. -/
theorem test_call : (ran (boot 0x2B0B)).map (fun t => (t.pc, t.sp.val, t.S[0])) = some (0xB0B#16, 1, 0x200#16) := by
  decide
/-- CF-8, step 17. -/
theorem test_call_full : faultOf { boot 0x2200 with sp := 16 } = some (.stackOverflow, 16, 0x200#16) := by decide
/-- CF-10. -/
theorem test_ret :
    (ran { boot 0x00EE with sp := 1, S := State.reset.S.set 0 0x202#16 }).map (fun t => (t.pc, t.sp.val, t.S[0])) =
      some (0x204#16, 0, 0x202#16) := by decide
/-- CF-9. -/
theorem test_ret_empty : faultOf (boot 0x00EE) = some (.stackUnderflow, 0, 0x200#16) := by decide
/-- CF-7: the target is not masked. -/
theorem test_jp_v0 : (ran (withV [(0, 0xFF#8)] (boot 0xBFFF))).map (fun t => t.pc) = some 0x10FE#16 := by decide
/-- L1-3, rows of SE Vx,nn and SNE Vx,nn. -/
theorem test_skips_imm :
    (ran (withV [(10, 5#8)] (boot 0x3A05))).map (fun t => t.pc) = some 0x204#16 ∧
    (ran (withV [(10, 5#8)] (boot 0x4A05))).map (fun t => t.pc) = some 0x202#16 := by decide
/-- L1-3, rows of SE Vx,Vy and SNE Vx,Vy. -/
theorem test_skips_reg :
    (ran (withV [(1, 9#8), (2, 8#8)] (boot 0x5120))).map (fun t => t.pc) = some 0x202#16 ∧
    (ran (withV [(1, 9#8), (2, 8#8)] (boot 0x9120))).map (fun t => t.pc) = some 0x204#16 := by decide

/-- MI-1. -/
theorem test_ld_i : (ran (boot 0xA300)).map (fun t => t.I) = some 0x300#16 := by decide
/-- MI-2: wrap, VF kept. -/
theorem test_add_i_wraps :
    (ran { withV [(0, 1#8), (15, 5#8)] (boot 0xF01E) with I := 0xFFFF#16 }).map (fun t => (t.I, t.v regF)) =
      some (0#16, 5#8) := by decide
/-- MI-4. -/
theorem test_ld_f : (ran (withV [(0, 0x1A#8)] (boot 0xF029))).map (fun t => t.I) = some 0x32#16 := by decide
/-- L1-7. -/
theorem test_bcd :
    (ran { withV [(0, 234#8)] (boot 0xF033) with I := 0x300#16 }).map
      (fun t => (t.mem.get 0x300, t.mem.get 0x301, t.mem.get 0x302, t.I)) = some (2#8, 3#8, 4#8, 0x300#16) := by decide
/-- MI-10 and MI-11. -/
theorem test_bcd_faults :
    faultOf { boot 0xF033 with I := 78#16 } = some (.memWrite, 78, 0x200#16) ∧
    faultOf { boot 0xF033 with I := 0xFFE#16 } = some (.memWrite, 0x1000, 0x200#16) := by decide
/-- L1-8, step 1. -/
theorem test_st_regs :
    (ran { withV [(0, 1#8), (1, 2#8), (2, 3#8), (3, 4#8), (4, 9#8)] (boot 0xF355) with I := 0x300#16 }).map
      (fun t => (t.mem.get 0x300, t.mem.get 0x303, t.mem.get 0x304)) = some (1#8, 4#8, 0#8) := by decide
/-- MI-15: a store over the running word. -/
theorem test_st_regs_over_code :
    (ran { withV [(0, 0x5A#8)] (boot 0xF055) with I := 0x200#16 }).map (fun t => (t.mem.get 0x200, t.mem.get 0x201)) =
      some (0x5A#8, 0x55#8) := by decide
/-- MI-14: the glyphs may be read. -/
theorem test_ld_regs_glyph :
    (ran (boot 0xF465)).map (fun t => (t.v 0, t.v 1, t.v 4, t.v 5)) = some (0xF0#8, 0x90#8, 0xF0#8, 0#8) := by decide
/-- MI-13. -/
theorem test_ld_regs_fault : faultOf { boot 0xF165 with I := 0xFFF#16 } = some (.memRead, 0x1000, 0x200#16) := by decide

/-- DRW-1: glyph B, some of its cells and neighbours. -/
theorem test_drw_glyph :
    (ran { boot 0xD015 with I := 0x37#16 }).map
      (fun t => ([0, 1, 2, 3, 64, 65, 67, 130, 131, 258].map t.FB.cell, t.v regF, t.dirty)) =
      some ([true, true, true, false, true, false, true, true, false, true], 0#8, true) := by decide
/-- DRW-7: x = 15 reads the old VF as the coordinate. -/
theorem test_drw_x_is_vf :
    (ran { withV [(15, 3#8)] (boot 0xDF01) with I := 0x300#16, mem := (boot 0xDF01).mem.set 0x300 0x80#8 }).map
      (fun t => (t.FB.cell 3, t.FB.cell 0, t.v regF)) = some (true, false, 0#8) := by decide
/-- DRW-2, DRW-3, DRW-5: the wraps of 43_draw.md R230. -/
theorem test_wraps :
    spriteCells .flat 62 31 [0xF0#8] = [2046, 2047, 0, 1] ∧
    spriteCells .perAxis 62 31 [0xF0#8] = [2046, 2047, 1984, 1985] ∧
    spriteCells .perAxis 255 0 [0xFF#8] = [63, 0, 1, 2, 3, 4, 5, 6] := by decide
/-- L1-5's variant: a cell already on sets the flag on a first draw. -/
theorem test_collision : (xorCells (Framebuffer.blank.toggle 1) [0, 1]).2 = true := by decide
/-- A second draw need not set the flag: the toggled cell was 1 before the first (log 15). -/
theorem test_second_draw_without_collision :
    (xorCells (Framebuffer.blank.toggle 0) [0]).2 = true ∧
    (xorCells (xorCells (Framebuffer.blank.toggle 0) [0]).1 [0]).2 = false := by decide

/-- IT-8 and L1-3: the key is not consumed. -/
theorem test_skp :
    (ran { withV [(3, 4#8)] (boot 0xE39E) with key := State.reset.key.set 4 true }).map (fun t => (t.pc, t.key[4])) =
      some (0x204#16, true) := by decide
/-- L1-3. -/
theorem test_sknp : (ran (withV [(3, 4#8)] (boot 0xE3A1))).map (fun t => t.pc) = some 0x204#16 := by decide
/-- IT-1: no 4-bit mask. -/
theorem test_skp_fault : faultOf (withV [(3, 0x10#8)] (boot 0xE39E)) = some (.keyIndex, 0x10, 0x200#16) := by decide
/-- IT-3: the lowest key. -/
theorem test_ld_k :
    (ran { boot 0xF50A with key := (State.reset.key.set 9 true).set 2 true }).map (fun t => (t.v 5, t.pc)) =
      some (2#8, 0x202#16) := by decide
/-- IT-2: a waiting step holds pc and still ticks. -/
theorem test_ld_k_waits : (ran { boot 0xF00A with DT := 2#8 }).map (fun t => (t.pc, t.DT)) = some (0x200#16, 1#8) := by
  decide
/-- IT-5. -/
theorem test_ld_vx_dt : (ran { boot 0xF007 with DT := 9#8 }).map (fun t => (t.v 0, t.DT)) = some (9#8, 8#8) := by decide
/-- IT-4. -/
theorem test_ld_dt : (ran (withV [(0, 5#8)] (boot 0xF015))).map (fun t => t.DT) = some 4#8 := by decide
/-- R256's example: soundActive after LD ST with 2. -/
theorem test_ld_st : (ran (withV [(0, 2#8)] (boot 0xF018))).map (fun t => (t.ST, soundActive t)) = some (1#8, true) := by
  decide

/-- DEC-1: the report, pc + 2 and the tick. -/
theorem test_unknown_step :
    (stepOp { boot 0x5121 with DT := 3#8 }).1 = .unknownOpcode 0x5121#16 ∧
    (stepOp { boot 0x5121 with DT := 3#8 }).2.pc = 0x202#16 ∧
    (stepOp { boot 0x5121 with DT := 3#8 }).2.DT = 2#8 := by decide
/-- HOST-8, step 2: a fetch across the end, and step 3: refused, with the codes of 60_exceptions.md R281. -/
theorem test_fetch_fault :
    (stepOp { boot 0 with pc := 0xFFF#16 }).1 = .faultOutOfBounds ⟨.memFetch, 0x1000#17, 0xFFF#16⟩ ∧
    (stepOp { boot 0 with pc := 0xFFF#16 }).1.code = 2 ∧
    (stepOp (stepOp { boot 0 with pc := 0xFFF#16 }).2).1.code = 4 := by decide
/-- HOST-1. -/
theorem test_not_loaded : (stepOp State.reset).1.code = 3 := by decide
/-- HOST-4, HOST-7: the refusals of load and setKey. -/
theorem test_host_refusals :
    (load [0#8] (boot 0)).1.code = 6 ∧ (setKey 16 true State.reset).1.code = some 7 := by decide
/-- P1's image: its bytes stand at 0x200 and up. -/
theorem test_load :
    (load [0x00#8, 0xE0#8, 0x6A#8, 0x05#8] State.reset).2.mem = [(0x201, 0xE0#8), (0x202, 0x6A#8), (0x203, 0x05#8)] := by
  decide

/-! Witnesses: a concrete state and operands that meet all the hypotheses of each statement that has some, at the
boundary values of its clauses. -/

theorem witness_DecodeEncode : (Instr.sys 0x0E1#12).wf = true ∧ (Instr.drw 15 15 15#4).wf = true := by decide
theorem witness_EncodeDecode : decode 0xFF65#16 = .ok (.ldRegs 15) := by decide
theorem witness_StepRunsDecoded : Live (boot 0x6A05) ∧ (boot 0x6A05).pc.toNat ≤ 0xFFE ∧
    decode (wordOfBytes ((boot 0x6A05).mem.get (boot 0x6A05).pc.toNat)
      ((boot 0x6A05).mem.get ((boot 0x6A05).pc.toNat + 1))) = .ok (.ldImm 10 5#8) ∧
    ∃ u, exec (.ldImm 10 5#8) (boot 0x6A05) = .next u ∧ u.faulted = false :=
  ⟨by decide, by decide, by decide, _, rfl, rfl⟩
theorem witness_StepRunsDecoded_faulting : Live (boot 0x00EE) ∧ (boot 0x00EE).pc.toNat ≤ 0xFFE ∧
    decode (wordOfBytes ((boot 0x00EE).mem.get (boot 0x00EE).pc.toNat)
      ((boot 0x00EE).mem.get ((boot 0x00EE).pc.toNat + 1))) = .ok .ret ∧
    ∃ u, exec .ret (boot 0x00EE) = .next u ∧ u.faulted = true :=
  ⟨by decide, by decide, by decide, _, rfl, rfl⟩
theorem witness_UnknownWordIsSkipped : Live (boot 0x5121) ∧ (boot 0x5121).pc.toNat ≤ 0xFFE ∧
    wordOfBytes ((boot 0x5121).mem.get (boot 0x5121).pc.toNat)
      ((boot 0x5121).mem.get ((boot 0x5121).pc.toNat + 1)) = 0x5121#16 ∧
    decode 0x5121#16 = .error (.unknownOpcode 0x5121#16) := by decide

/-- A core that has faulted (L2-CF CF-9). -/
def faultedCore : State := enterFault (boot 0x00EE) ⟨.stackUnderflow, 0⟩

theorem witness_RefusedStepsChangeNothing : faultedCore.faulted = true ∧
    (State.reset.faulted = false ∧ State.reset.loaded = false) ∧ Live (boot 0x6A05) := by decide
theorem witness_FetchReadsOrFaults :
    ({ boot 0 with pc := 0xFFE#16 } : State).pc.toNat ≤ 0xFFE ∧
    (Live { boot 0 with pc := 0xFFF#16 } ∧ ({ boot 0 with pc := 0xFFF#16 } : State).pc.toNat = 0xFFF) ∧
    (Live { boot 0 with pc := 0x1000#16 } ∧ 0x1000 ≤ ({ boot 0 with pc := 0x1000#16 } : State).pc.toNat) ∧
    (Live { boot 0 with pc := 0xFFFF#16 } ∧ 0x1000 ≤ ({ boot 0 with pc := 0xFFFF#16 } : State).pc.toNat) := by decide
theorem witness_FaultEntry : (∃ t, step (boot 0x00EE) = .next t ∧ t.faulted = true) ∧
    (boot 0x00EE).pc.toNat ≤ 0xFFE ∧ decode 0x00EE#16 = .ok .ret ∧ ∃ u, exec .ret (boot 0x00EE) = .next u :=
  ⟨⟨_, rfl, rfl⟩, by decide, by decide, _, rfl⟩
theorem witness_FaultIsSticky : faultedCore.faulted = true := rfl
theorem witness_WhichInstructionRaisesWhat : (boot 0x00EE).faulted = false ∧
    ∃ t, exec .ret (boot 0x00EE) = .next t ∧ t.faulted = true := ⟨rfl, _, rfl, rfl⟩

/-- A loaded core has the invariant: the state the statements about invariants start from. -/
theorem witness_inv : Inv (boot 0x6A05) where
  mem_wf := by decide
  glyphs := fun _ => by decide
  pc_bound := fun _ => by decide
  stack := fun _ k h hk => absurd hk (Nat.not_lt_zero k)

theorem witness_StepKeepsInv : Inv (boot 0x6A05) ∧ ∃ t, step (boot 0x6A05) = .next t := ⟨witness_inv, _, rfl⟩
theorem witness_RunsKeepInv : Inv (boot 0x6A05) := witness_inv
theorem witness_HostOpFrames : (hostOp .step (boot 0x6A05)).2.faulted = false ∧
    (hostOp .tick (boot 0x6A05)).2.faulted = false ∧ (HostOp.tick ≠ .step ∧ HostOp.tick ≠ .pollFramebuffer) ∧
    ∀ k b, HostOp.step ≠ .setKey k b := by
  refine ⟨by decide, by decide, by decide, by simp⟩
theorem witness_OnlyNamedRegistersChange : (∃ t, exec (.addReg 1 2) State.reset = .next t ∧ t.faulted = false) ∧
    ¬ namesV (.addReg 1 2) 3 ∧ ¬ (writesFlag (.addReg 1 2) ∧ (3 : Reg) = regF) :=
  ⟨⟨_, rfl, rfl⟩, by simp [namesV], fun h => absurd h.2 (by decide)⟩
theorem witness_OnlyTheirInstructionsWrite : ∃ t, exec .cls State.reset = .next t ∧ t.faulted = false := ⟨_, rfl, rfl⟩
theorem witness_RetReturns : ({ State.reset with sp := 1 } : State).sp.val ≠ 0 ∧
    ({ State.reset with sp := 16 } : State).sp.val ≠ 0 ∧ State.reset.sp.val = 0 := by decide
theorem witness_CallPushesItsAddress : State.reset.sp.val < 16 ∧ ({ State.reset with sp := 15 } : State).sp.val < 16 ∧
    ({ State.reset with sp := 16 } : State).sp.val = 16 := by decide
theorem witness_ReturnUndoesCall : ({ State.reset with sp := 15 } : State).sp.val < 16 ∧
    SameStack State.reset { State.reset with pc := 0xB0B#16 } := by decide
theorem witness_AddRegisters : (1 : Reg) ≠ regF := by decide
theorem witness_SubtractRegisters : (0 : Reg) ≠ regF ∧ (14 : Reg) ≠ regF := by decide
theorem witness_Shifts (s : State) (x y : Reg) : ∃ src, (Config.shiftSrc = .vx → src = s.v x) ∧
    (Config.shiftSrc = .vy → src = s.v y) := by
  cases h : Config.shiftSrc
  · exact ⟨s.v x, fun _ => rfl, fun hc => nomatch hc⟩
  · exact ⟨s.v y, (fun hc => nomatch hc), fun _ => rfl⟩
theorem witness_BcdStore : State.reset.mem.wf ∧
    (80 ≤ ({ State.reset with I := 80#16 } : State).I.toNat ∧ 80 + 2 < 4096) ∧
    ({ State.reset with I := 4093#16 } : State).I.toNat + 2 < 4096 ∧
    ({ State.reset with I := 79#16 } : State).I.toNat < 80 ∧
    4096 ≤ ({ State.reset with I := 4094#16 } : State).I.toNat + 2 := by decide
theorem witness_BlockStore : State.reset.mem.wf ∧
    (80 ≤ ({ State.reset with I := 80#16 } : State).I.toNat ∧ 80 + (15 : Reg).val < 4096) ∧
    ({ State.reset with I := 4080#16 } : State).I.toNat + (15 : Reg).val < 4096 ∧
    ({ State.reset with I := 79#16 } : State).I.toNat < 80 ∧
    4096 ≤ ({ State.reset with I := 4096#16 } : State).I.toNat + (0 : Reg).val := by decide
theorem witness_BlockLoad : ({ State.reset with I := 4095#16 } : State).I.toNat + (0 : Reg).val < 4096 ∧
    4096 ≤ ({ State.reset with I := 4081#16 } : State).I.toNat + (15 : Reg).val := by decide
theorem witness_BlockRoundTrip : State.reset.mem.wf ∧ 80 ≤ ({ State.reset with I := 4080#16 } : State).I.toNat ∧
    ({ State.reset with I := 4080#16 } : State).I.toNat + (15 : Reg).val ≤ 4095 := by decide
theorem witness_BoundsCheckedAccess : State.reset.mem.wf ∧ (79 < 80) ∧ (80 ≤ 80 ∧ 80 < 4096) ∧ (4095 < 4096) ∧
    4096 ≤ 4096 := by decide
/-- LD [I],V0 over the second byte of the next word, at the last pc whose next word is in memory. -/
def storeBeforeEnd : State := { withV [(0, 0x5A#8)] (boot 0xF055) with pc := 0xFFC#16, I := 0xFFF#16 }
/-- LD B,V0 over the next word and the byte after it. -/
def bcdIntoCode : State := { withV [(0, 234#8)] (boot 0xF033) with I := 0x202#16 }
theorem witness_StoredCodeIsFetched_block : storeBeforeEnd.mem.wf ∧ Stores (.stRegs 0) storeBeforeEnd [0x5A#8] ∧
    (∃ t, exec (.stRegs 0) storeBeforeEnd = .next t ∧ t.faulted = false ∧ t.pc.toNat ≤ 0xFFE) ∧
    storeBeforeEnd.pc.toNat ≤ 0xFFC :=
  ⟨by decide, .inr ⟨0, rfl, rfl, by decide⟩, ⟨_, rfl, rfl, by decide⟩, by decide⟩
theorem witness_StoredCodeIsFetched_bcd : bcdIntoCode.mem.wf ∧ Stores (.ldB 0) bcdIntoCode [2#8, 3#8, 4#8] ∧
    (∃ t, exec (.ldB 0) bcdIntoCode = .next t ∧ t.faulted = false ∧ t.pc.toNat ≤ 0xFFE) ∧
    bcdIntoCode.pc.toNat ≤ 0xFFC :=
  ⟨by decide, .inl ⟨0, rfl, by decide⟩, ⟨_, rfl, rfl, by decide⟩, by decide⟩
theorem witness_DrawTogglesSpriteCells : (0#4 = 0#4) ∧
    ({ State.reset with I := 4081#16 } : State).I.toNat + (15#4).toNat ≤ 4096 ∧
    (SpriteHits State.reset 0 0 1#4 0 ∧ ¬ SpriteHits State.reset 0 0 0#4 0) ∧
    (1#4 ≠ 0#4 ∧ 4096 < ({ State.reset with I := 4096#16 } : State).I.toNat + (1#4).toNat) := by
  refine ⟨rfl, by decide, ⟨⟨0, 0, by decide, by decide, by decide, by decide⟩, ?_⟩, by decide⟩
  rintro ⟨r, c, hr, -⟩
  exact Nat.not_lt_zero r hr
theorem witness_NoCellToggledTwice : (List.replicate 15 0xFF#8).length ≤ 15 := by decide
theorem witness_DrawIsItsOwnInverse : State.reset.I.toNat + (1#4).toNat ≤ 4096 ∧
    SpriteHits State.reset 0 0 1#4 0 ∧ State.reset.FB.cell 0 = false :=
  ⟨by decide, ⟨0, 0, by decide, by decide, by decide, by decide⟩, by decide⟩
theorem witness_KeySkips : ((withV [(3, 15#8)] State.reset).v 3).toNat < 16 ∧
    16 ≤ ((withV [(3, 16#8)] State.reset).v 3).toNat := by decide
theorem witness_WaitForKey : (State.reset.key.set 3 true)[(3 : Reg).val] = true ∧
    (∀ j : Reg, j < 3 → (State.reset.key.set 3 true)[j.val] = false) ∧ ∀ j : Reg, State.reset.key[j.val] = false := by
  decide
theorem witness_OneTickPerCompletedStep : (boot 0xF015).pc.toNat ≤ 0xFFE ∧
    decode (wordOfBytes ((boot 0xF015).mem.get (boot 0xF015).pc.toNat)
      ((boot 0xF015).mem.get ((boot 0xF015).pc.toNat + 1))) = .ok (.ldDt 0) ∧
    ∃ t, step (boot 0xF015) = .next t ∧ t.faulted = false := ⟨by decide, by decide, _, rfl, rfl⟩
theorem witness_LoadCopiesTheImage : State.reset.mem.wf ∧ (boot 0).loaded = true ∧ State.reset.loaded = false ∧
    3584 < (List.replicate 3585 0#8).length ∧ (List.replicate 3584 0#8).length ≤ 3584 := by
  refine ⟨by decide, rfl, rfl, ?_, ?_⟩
  · rw [List.length_replicate]; decide
  · rw [List.length_replicate]
theorem witness_HostReadsAndKeys : (clearScreen State.reset).dirty = true ∧ State.reset.dirty = false ∧ 15 < 16 ∧
    16 ≤ 16 := by decide
theorem witness_BootRunsTheFirstInstruction : ([] : List Byte).length ≤ 3582 ∧ (Instr.ldImm 10 5#8).wf = true ∧
    ∃ t, load (encodeBytes (.ldImm 10 5#8) ++ []) State.reset = (.ok, t) := ⟨by decide, by decide, _, rfl⟩
theorem witness_Parked : Parked (boot 0x1200) where
  live := by decide
  pc_le := by decide
  word := ⟨0x200#12, by decide, by decide⟩

end Sys2Proof.Tests
end

section
/-! SUPPORT. What a completed instruction leaves (10_state.md R21 to R37, 20_memory.md R70): each of the 35 meanings is
read once, as one of thirteen shapes, and every frame and invariant of `exec` is a case split over the shapes. -/

namespace Sys2Proof.Machine

/-! When a shared operation that may raise has completed. -/

theorem pop_ok {s : State} {p : Word × State} (h : pop s = .ok p) :
    ∃ _ : s.sp.val ≠ 0, p = (s.S[s.sp.val - 1]'(by omega), { s with sp := ⟨s.sp.val - 1, by omega⟩ }) := by
  by_cases h0 : s.sp.val = 0
  · exact nomatch (pop_of_empty h0).symm.trans h
  · exact ⟨h0, (Except.ok.inj ((pop_of_pos h0).symm.trans h)).symm⟩

theorem push_ok {s t : State} {v : Word} (h : push s v = .ok t) :
    ∃ h0 : s.sp.val < 16, t = { s with S := s.S.set s.sp.val v h0, sp := ⟨s.sp.val + 1, by omega⟩ } := by
  rcases Nat.lt_or_ge s.sp.val 16 with h0 | h0
  · exact ⟨h0, (Except.ok.inj ((push_of_lt h0).symm.trans h)).symm⟩
  · exact nomatch (push_of_full (by omega)).symm.trans h

theorem length_of_loadAtI_ok {s : State} {n : Nat} {bytes : List Byte} (h : loadAtI s n = .ok bytes) :
    bytes.length = n := by
  by_cases hin : n = 0 ∨ s.I.toNat + n ≤ memSize
  · rw [← Except.ok.inj ((loadAtI_of_le hin).symm.trans h), List.length_map, List.length_range]
  · exact nomatch (loadAtI_of_gt (by omega) (by omega)).symm.trans h

/-- A block load leaves the registers above the bytes it was given. -/
theorem v_setLowV_of_length_le {s : State} {bytes : List Byte} {r : Reg} (h : bytes.length ≤ r.val) :
    (s.setLowV bytes).v r = s.v r := by
  simp [List.getElem?_eq_none h]

/-- A store of at least one byte that completes lay between the glyphs and the end of memory. -/
theorem storeAtI_ok_of_ne_nil {s t : State} {bytes : List Byte} (h0 : bytes ≠ []) (h : storeAtI s bytes = .ok t) :
    glyphEnd ≤ s.I.toNat ∧ s.I.toNat + bytes.length ≤ memSize ∧
      t = { s with mem := s.mem.setAll s.I.toNat bytes } := by
  by_cases hout : s.I.toNat < glyphEnd ∨ memSize < s.I.toNat + bytes.length
  · exact nomatch (storeAtI_of_outside h0 hout).symm.trans h
  · have hin := storeAtI_of_inside (s := s) (bytes := bytes) (.inr (by omega)) (.inr (by omega))
    exact ⟨by omega, by omega, (Except.ok.inj (hin.symm.trans h)).symm⟩

/-! The shapes. -/

/-- `Completed s i t`: instruction i, run at s without a fault, can leave t. -/
inductive Completed (s : State) : Instr → State → Prop
  | jump {i : Instr} {sel : PcSel} (hsel : ∀ entry, sel ≠ .ret entry) : Completed s i (s.goto sel)
  | setV {i : Instr} {x : Reg} (b : Byte) (hx : namesV i x) : Completed s i ((s.setV x b).goto .inc2)
  | random (x : Reg) (nn b : Byte) :
      Completed s (.rnd x nn) ((({ s with draws := s.draws + 1 } : State).setV x b).goto .inc2)
  | setFlag {i : Instr} {x : Reg} (b : Byte) (f : Bool) (hx : namesV i x) (hi : writesFlag i) :
      Completed s i ((s.setResultFlag x b f).goto .inc2)
  | loadRegs {x : Reg} {V : Vector Byte 16} (hV : ∀ r : Reg, x < r → V[r.val] = s.v r) :
      Completed s (.ldRegs x) (({ s with V := V } : State).goto .inc2)
  | setI {i : Instr} (a : Word) (hi : (∃ nnn, i = .ldI nnn) ∨ (∃ x, i = .addI x) ∨ ∃ x, i = .ldF x) :
      Completed s i ((s.setI a).goto .inc2)
  | store {i : Instr} {bytes : List Byte} (hi : (∃ x, i = .ldB x) ∨ ∃ x, i = .stRegs x)
      (hlo : glyphEnd ≤ s.I.toNat) (hhi : s.I.toNat + bytes.length ≤ memSize) :
      Completed s i (({ s with mem := s.mem.setAll s.I.toNat bytes } : State).goto .inc2)
  | ret (h : s.sp.val ≠ 0) :
      Completed s .ret (({ s with sp := ⟨s.sp.val - 1, by omega⟩ } : State).goto
        (.ret (s.S[s.sp.val - 1]'(by omega))))
  | call (nnn : Imm12) (h : s.sp.val < 16) :
      Completed s (.call nnn)
        (({ s with S := s.S.set s.sp.val s.pc h, sp := ⟨s.sp.val + 1, by omega⟩ } : State).goto (.abs nnn))
  | cls : Completed s .cls ((clearScreen s).goto .inc2)
  | draw (x y : Reg) (n : Nibble) (rows : List Byte) :
      Completed s (.drw x y n) ((drawSprite s x y rows).goto .inc2)
  | setDT (x : Reg) : Completed s (.ldDt x) (({ s with DT := s.v x } : State).goto .inc2)
  | setST (x : Reg) : Completed s (.ldSt x) (({ s with ST := s.v x } : State).goto .inc2)

/-- The outcome of running i at s: a next state, completed or in the fault entry (60_exceptions.md R289). -/
def EndsWell (s : State) (i : Instr) (o : Host.Outcome State Fault Refusal) : Prop :=
  ∃ t, o = .next t ∧ (Completed s i t ∨ ∃ r, t = enterFault s r)

theorem Completed.endsWell {s t : State} {i : Instr} (h : Completed s i t) : EndsWell s i (.next t) :=
  ⟨t, rfl, .inl h⟩

/-- An operation that may raise, followed by the completion of the instruction. -/
theorem endsWell_settle_map {s : State} {i : Instr} {α : Type} {result : Except Raise α} {f : α → State}
    (h : ∀ a, result = .ok a → Completed s i (f a)) : EndsWell s i (settle s (result.map f)) := by
  cases result with
  | ok a => exact (h a rfl).endsWell
  | error r => exact ⟨_, rfl, .inr ⟨r, rfl⟩⟩

theorem Completed.skip {s : State} {i : Instr} (c : Bool) : Completed s i (s.skipIf c) :=
  .jump (by cases c <;> exact nofun)

/-- Every instruction ends in a next state, completed in one of the shapes or in the fault entry (10_state.md R50). -/
theorem exec_endsWell (i : Instr) (s : State) : EndsWell s i (exec i s) := by
  cases i with
  | sys _ | jp _ | jpV0 _ => exact Completed.endsWell (.jump nofun)
  | seImm _ _ | sneImm _ _ | seReg _ _ | sneReg _ _ => exact Completed.endsWell (.skip _)
  | skp _ | sknp _ => exact endsWell_settle_map fun _ _ => .skip _
  | ldImm _ _ | addImm _ _ | ldReg _ _ | or _ _ | and _ _ | xor _ _ | ldVxDt _ =>
    exact Completed.endsWell (.setV _ rfl)
  | rnd x nn => exact Completed.endsWell (.random x nn _)
  | addReg _ _ | sub _ _ | shr _ _ | subn _ _ | shl _ _ => exact Completed.endsWell (.setFlag _ _ rfl trivial)
  | ldK x =>
    show EndsWell s (.ldK x) (execLdK x s)
    unfold execLdK
    split
    · exact Completed.endsWell (.setV _ rfl)
    · exact Completed.endsWell (.jump nofun)
  | ldI nnn => exact Completed.endsWell (.setI _ (.inl ⟨nnn, rfl⟩))
  | addI x => exact Completed.endsWell (.setI _ (.inr (.inl ⟨x, rfl⟩)))
  | ldF x => exact Completed.endsWell (.setI _ (.inr (.inr ⟨x, rfl⟩)))
  | ldB x =>
    refine endsWell_settle_map fun u hu => ?_
    obtain ⟨hlo, hhi, rfl⟩ := storeAtI_ok_of_ne_nil (List.cons_ne_nil _ _) hu
    exact .store (.inl ⟨x, rfl⟩) hlo hhi
  | stRegs x =>
    refine endsWell_settle_map fun u hu => ?_
    have hne : lowRegisters s x ≠ [] := List.ne_nil_of_length_pos (by simp)
    obtain ⟨hlo, hhi, rfl⟩ := storeAtI_ok_of_ne_nil hne hu
    exact .store (.inr ⟨x, rfl⟩) hlo hhi
  | ldRegs x =>
    refine endsWell_settle_map fun bytes hbytes => .loadRegs fun r hr => ?_
    exact v_setLowV_of_length_le (by rw [length_of_loadAtI_ok hbytes]; exact hr)
  | ret =>
    refine endsWell_settle_map fun p hp => ?_
    obtain ⟨h, rfl⟩ := pop_ok hp
    exact .ret h
  | call nnn =>
    refine endsWell_settle_map fun u hu => ?_
    obtain ⟨h, rfl⟩ := push_ok hu
    exact .call nnn h
  | cls => exact Completed.endsWell .cls
  | drw x y n => exact endsWell_settle_map fun rows _ => .draw x y n rows
  | ldDt x => exact Completed.endsWell (.setDT x)
  | ldSt x => exact Completed.endsWell (.setST x)

/-- Everything an instruction can do. -/
theorem exec_cases {i : Instr} {s t : State} (h : exec i s = .next t) :
    Completed s i t ∨ ∃ r, t = enterFault s r := by
  obtain ⟨u, hu, hcases⟩ := exec_endsWell i s
  obtain rfl := Host.Outcome.next.inj (hu.symm.trans h)
  exact hcases

/-- An instruction that ends unfaulted has completed. -/
theorem completed_of_exec {i : Instr} {s t : State} (h : exec i s = .next t) (hf : t.faulted = false) :
    Completed s i t := by
  rcases exec_cases h with hc | ⟨r, rfl⟩
  · exact hc
  · exact nomatch hf

/-! What a completed instruction leaves unchanged, field by field. -/

namespace Completed

variable {s t : State} {i : Instr}

theorem key (h : Completed s i t) : t.key = s.key := by cases h <;> rfl

theorem loaded (h : Completed s i t) : t.loaded = s.loaded := by cases h <;> rfl

theorem faulted (h : Completed s i t) : t.faulted = s.faulted := by cases h <;> rfl

theorem I (h : Completed s i t) :
    t.I = s.I ∨ (∃ nnn, i = .ldI nnn) ∨ (∃ x, i = .addI x) ∨ ∃ x, i = .ldF x := by
  cases h with
  | setI a hi => exact .inr hi
  | _ => exact .inl rfl

theorem stack (h : Completed s i t) : SameStack s t ∨ i = .ret ∨ ∃ nnn, i = .call nnn := by
  cases h with
  | ret => exact .inr (.inl rfl)
  | call nnn => exact .inr (.inr ⟨nnn, rfl⟩)
  | _ => exact .inl ⟨rfl, rfl⟩

theorem DT (h : Completed s i t) : t.DT = s.DT ∨ ∃ x, i = .ldDt x := by
  cases h with
  | setDT x => exact .inr ⟨x, rfl⟩
  | _ => exact .inl rfl

theorem ST (h : Completed s i t) : t.ST = s.ST ∨ ∃ x, i = .ldSt x := by
  cases h with
  | setST x => exact .inr ⟨x, rfl⟩
  | _ => exact .inl rfl

theorem display (h : Completed s i t) : SameDisplay s t ∨ i = .cls ∨ ∃ x y n, i = .drw x y n := by
  cases h with
  | cls => exact .inr (.inl rfl)
  | draw x y n => exact .inr (.inr ⟨x, y, n, rfl⟩)
  | _ => exact .inl ⟨rfl, rfl⟩

theorem mem (h : Completed s i t) : t.mem = s.mem ∨ (∃ x, i = .ldB x) ∨ ∃ x, i = .stRegs x := by
  cases h with
  | store hi => exact .inr hi
  | _ => exact .inl rfl

/-- A V register that is neither a destination nor a written flag keeps its value (10_state.md R21, R22). -/
theorem v (h : Completed s i t) {r : Reg} (hr : ¬ namesV i r) (hflag : ¬ (writesFlag i ∧ r = regF)) :
    t.v r = s.v r := by
  cases h with
  | @setV _ x b hx =>
    have hne : r ≠ x := by rintro rfl; exact hr hx
    exact (State.v_setV s x r b).trans (if_neg hne)
  | random x nn b => exact (State.v_setV _ x r b).trans (if_neg hr)
  | @setFlag _ x b f hx hi =>
    have hne : r ≠ x := by rintro rfl; exact hr hx
    have hneF : r ≠ regF := fun h => hflag ⟨hi, h⟩
    simp [hne, hneF]
  | loadRegs hV => exact hV r (not_le.1 hr)
  | draw x y n rows =>
    have hne : r ≠ regF := fun h => hflag ⟨trivial, h⟩
    exact (State.v_setV _ regF r _).trans (if_neg hne)
  | _ => rfl

end Completed

end Sys2Proof.Machine
end

section
/-! SUPPORT. Every step and every host operation keeps the invariant `Inv` (10_state.md R27, R46, 20_memory.md R85). -/

namespace Sys2Proof.Machine

/-- Read after a block write, away from the block (20_memory.md R78). -/
theorem Memory.get_setAll_outside {m : Memory} (hm : m.wf) {bytes : List Byte} {a b : Nat}
    (h : a + bytes.length ≤ memSize) (hb : b < a ∨ a + bytes.length ≤ b) : (m.setAll a bytes).get b = m.get b := by
  rw [Memory.get_setAll hm bytes h, dif_neg (by omega)]

/-- From a pc that can be fetched, every next-pc source but a bad return address stays at or below 0xFFF + 0xFF. -/
theorem nextPc_le {s : State} {sel : PcSel} (hpc : s.pc.toNat ≤ 0xFFE)
    (hret : ∀ entry, sel = .ret entry → entry.toNat ≤ 0xFFE) : (nextPc s sel).toNat ≤ 0x10FE := by
  cases sel with
  | hold => show s.pc.toNat ≤ _; omega
  | inc2 => simp only [nextPc, BitVec.toNat_add, BitVec.toNat_ofNat]; omega
  | inc4 => simp only [nextPc, BitVec.toNat_add, BitVec.toNat_ofNat]; omega
  | abs nnn =>
    have := nnn.isLt
    simp only [nextPc, BitVec.truncate_eq_setWidth, BitVec.toNat_setWidth]
    omega
  | absV0 nnn =>
    have := nnn.isLt
    have := (s.v 0).isLt
    simp only [nextPc, BitVec.truncate_eq_setWidth, BitVec.toNat_add, BitVec.toNat_setWidth]
    omega
  | ret entry =>
    have := hret entry rfl
    simp only [nextPc, BitVec.toNat_add, BitVec.toNat_ofNat]
    omega

theorem pc_le_of_fetchWord_ok {s : State} {w : Word} (h : fetchWord s = .ok w) : s.pc.toNat ≤ 0xFFE := by
  by_contra hgt
  exact nomatch (fetchWord_of_gt (by omega)).symm.trans h

/-! Completed instructions, one clause of the invariant at a time. -/

namespace Completed

variable {s t : State} {i : Instr}

theorem mem_wf (h : Completed s i t) (hm : s.mem.wf) : t.mem.wf := by
  cases h with
  | store _ _ hhi => exact Memory.wf_setAll hm _ hhi
  | _ => exact hm

theorem glyphsIntact (h : Completed s i t) (hm : s.mem.wf) (hg : GlyphsIntact s) : GlyphsIntact t := by
  cases h with
  | store _ hlo hhi =>
    have hlo' : 80 ≤ s.I.toNat := hlo
    exact fun a ha => (Memory.get_setAll_outside hm hhi (.inl (by omega))).trans (hg a ha)
  | _ => exact hg

theorem pc_le (h : Completed s i t) (hpc : s.pc.toNat ≤ 0xFFE) (hs : StackFetchable s) : t.pc.toNat ≤ 0x10FE := by
  cases h with
  | jump hsel => exact nextPc_le hpc fun entry he => absurd he (hsel entry)
  | ret h0 =>
    refine nextPc_le hpc fun entry he => ?_
    obtain rfl := PcSel.ret.inj he
    exact hs _ (by omega) (by omega)
  | _ => exact nextPc_le hpc nofun

theorem stackFetchable (h : Completed s i t) (hpc : s.pc.toNat ≤ 0xFFE) (hs : StackFetchable s) :
    StackFetchable t := by
  cases h with
  | ret h0 =>
    intro k hk hlt
    have hlt' : k < s.sp.val - 1 := hlt
    exact hs k hk (by omega)
  | call nnn h0 =>
    intro k hk hlt
    have hlt' : k < s.sp.val + 1 := hlt
    show ((s.S.set s.sp.val s.pc h0)[k]).toNat ≤ 0xFFE
    rw [Vector.getElem_set]
    split
    · exact hpc
    · exact hs k hk (by omega)
  | _ => exact hs

end Completed

/-! The invariant through the parts of a step. -/

theorem inv_enterFault (s : State) (r : Raise) : Inv (enterFault s r) where
  mem_wf := Memory.wf_ofFn _
  glyphs := nofun
  pc_bound := nofun
  stack := nofun

theorem Completed.inv {s t : State} {i : Instr} (h : Completed s i t) (hs : Inv s) (hf : s.faulted = false)
    (hpc : s.pc.toNat ≤ 0xFFE) : Inv t where
  mem_wf := h.mem_wf hs.mem_wf
  glyphs _ := h.glyphsIntact hs.mem_wf (hs.glyphs hf)
  pc_bound _ := h.pc_le hpc (hs.stack hf)
  stack _ := h.stackFetchable hpc (hs.stack hf)

theorem inv_skipUnknown {s : State} (hs : Inv s) (hpc : s.pc.toNat ≤ 0xFFE) : Inv (skipUnknown s) where
  mem_wf := hs.mem_wf
  glyphs := hs.glyphs
  pc_bound _ := nextPc_le hpc nofun
  stack := hs.stack

theorem inv_endStep {s : State} (hs : Inv s) : Inv (endStep s) := by
  rw [endStep_eq]
  split
  · exact hs
  · exact ⟨hs.mem_wf, hs.glyphs, hs.pc_bound, hs.stack⟩

/-- A step keeps the invariant. -/
theorem inv_of_step {s t : State} (hs : Inv s) (h : step s = .next t) : Inv t := by
  obtain ⟨hf, -, ⟨r, -, rfl⟩ | ⟨w, hw, ⟨e, -, rfl⟩ | ⟨i, u, -, hu, rfl⟩⟩⟩ := step_cases h
  · exact inv_enterFault s r
  · exact inv_endStep (inv_skipUnknown hs (pc_le_of_fetchWord_ok hw))
  · apply inv_endStep
    rcases exec_cases hu with hc | ⟨r, rfl⟩
    · exact hc.inv hs hf (pc_le_of_fetchWord_ok hw)
    · exact inv_enterFault s r

/-! The host operations (10_state.md R45 to R57), each through what it can change. -/

theorem stepOp_of_next {s t : State} (h : step s = .next t) : stepOp s = (stepReport s t, t) := by
  rw [stepOp, h]

theorem stepOp_of_refused {s : State} {r : Refusal} (h : step s = .refused r) : stepOp s = (.refused r, s) := by
  rw [stepOp, h]

/-- The state after step(): the next state of a step, or the same state where it was refused. -/
theorem stepOp_cases (s : State) : step s = .next (stepOp s).2 ∨ (stepOp s).2 = s := by
  cases h : step s with
  | next t => exact .inl (by rw [stepOp_of_next h])
  | fault f => exact nomatch f
  | refused r => exact .inr (by rw [stepOp_of_refused h])

theorem load_of_loaded {bytes : List Byte} {s : State} (h : s.loaded = true) :
    load bytes s = (.refusedAlreadyLoaded, s) := if_pos h

theorem load_of_too_large {bytes : List Byte} {s : State} (h : s.loaded = false) (hlen : progMax < bytes.length) :
    load bytes s = (.tooLarge bytes.length, s) := by
  rw [load, if_neg (by simp [h]), if_pos hlen]

theorem load_of_fits {bytes : List Byte} {s : State} (h : s.loaded = false) (hlen : bytes.length ≤ progMax) :
    load bytes s = (.ok, { s with mem := s.mem.setAll progBase bytes, loaded := true }) := by
  rw [load, if_neg (by simp [h]), if_neg (Nat.not_lt.2 hlen)]

/-- The state after load(): the same where it was refused, else the image that fits copied (10_state.md R53). -/
theorem load_cases (bytes : List Byte) (s : State) :
    (load bytes s).2 = s ∨ bytes.length ≤ progMax ∧
      (load bytes s).2 = { s with mem := s.mem.setAll progBase bytes, loaded := true } := by
  cases hl : s.loaded with
  | true => exact .inl (by rw [load_of_loaded hl])
  | false =>
    rcases Nat.lt_or_ge progMax bytes.length with hlen | hlen
    · exact .inl (by rw [load_of_too_large hl hlen])
    · exact .inr ⟨hlen, by rw [load_of_fits hl hlen]⟩

theorem pollFramebuffer_state (s : State) : (pollFramebuffer s).2 = { s with dirty := false } := by
  cases s with
  | mk _ _ _ _ _ _ _ _ _ dirty => cases dirty <;> rfl

theorem setKey_of_lt {index : Nat} {b : Bool} {s : State} (h : index < 16) :
    setKey index b s = (.done, { s with key := s.key.set index b }) := dif_pos h

theorem setKey_of_ge {index : Nat} {b : Bool} {s : State} (h : 16 ≤ index) :
    setKey index b s = (.refusedBadKey index, s) := dif_neg (Nat.not_lt.2 h)

/-- setKey() changes the keys only. -/
theorem setKey_state (index : Nat) (b : Bool) (s : State) :
    (setKey index b s).2 = { s with key := (setKey index b s).2.key } := by
  rcases Nat.lt_or_ge index 16 with h | h
  · rw [setKey_of_lt h]
  · rw [setKey_of_ge h]

/-- load() keeps the invariant: an image that fits lies above the glyphs and inside memory. -/
theorem inv_load {s : State} (hs : Inv s) (bytes : List Byte) : Inv (load bytes s).2 := by
  rcases load_cases bytes s with h | ⟨hlen, h⟩
  · rwa [h]
  · have hfits : progBase + bytes.length ≤ memSize := by simp only [progBase, progMax, memSize] at *; omega
    rw [h]
    exact {
      mem_wf := Memory.wf_setAll hs.mem_wf bytes hfits
      glyphs := fun hf a ha =>
        (Memory.get_setAll_outside hs.mem_wf hfits (.inl (by simp only [progBase]; omega))).trans (hs.glyphs hf a ha)
      pc_bound := hs.pc_bound
      stack := hs.stack }

/-- Every host operation keeps the invariant. -/
theorem inv_hostOp {s : State} (hs : Inv s) (op : HostOp) : Inv (hostOp op s).2 := by
  cases op with
  | load bytes => exact inv_load hs bytes
  | step =>
    rcases stepOp_cases s with h | h
    · exact inv_of_step hs h
    · show Inv (stepOp s).2
      rwa [h]
  | pollFramebuffer =>
    show Inv (pollFramebuffer s).2
    rw [pollFramebuffer_state]
    exact ⟨hs.mem_wf, hs.glyphs, hs.pc_bound, hs.stack⟩
  | setKey index b =>
    show Inv (setKey index b s).2
    rw [setKey_state]
    exact ⟨hs.mem_wf, hs.glyphs, hs.pc_bound, hs.stack⟩
  | soundActive => exact hs
  | tick => exact hs

theorem inv_runOps (ops : List HostOp) {s : State} (hs : Inv s) : Inv (runOps ops s) := by
  induction ops generalizing s with
  | nil => exact hs
  | cons op rest ih => exact ih (inv_hostOp hs op)

/-! Keys through a step (10_state.md R36), and how a step of a live core ends. -/

@[simp] theorem endStep_key (s : State) : (endStep s).key = s.key := by
  rw [endStep_eq]
  split <;> rfl

@[simp] theorem endStep_faulted (s : State) : (endStep s).faulted = s.faulted := by
  rw [endStep_eq]
  split <;> rfl

/-- A step that does not end faulted changes no key. -/
theorem step_key {s t : State} (h : step s = .next t) (hf : t.faulted = false) : t.key = s.key := by
  obtain ⟨-, -, ⟨r, -, rfl⟩ | ⟨w, -, ⟨e, -, rfl⟩ | ⟨i, u, -, hu, rfl⟩⟩⟩ := step_cases h
  · exact nomatch hf
  · rw [endStep_key, skipUnknown_key]
  · rw [endStep_faulted] at hf
    rw [endStep_key, (completed_of_exec hu hf).key]

theorem step_of_faulted {s : State} (h : s.faulted = true) : step s = .refused .faulted := if_pos h

theorem step_of_not_loaded {s : State} (hf : s.faulted = false) (hl : s.loaded = false) :
    step s = .refused .notLoaded := by
  rw [step, if_neg (by simp [hf]), if_pos (by simp [hl])]

theorem step_of_fetch_error {s : State} {r : Raise} (hs : Live s) (hw : fetchWord s = .error r) :
    step s = .next (enterFault s r) := by
  simp [step, hs.1, hs.2, hw]

theorem step_of_unknown {s : State} {w : Word} {e : DecodeError} (hs : Live s) (hw : fetchWord s = .ok w)
    (hd : decode w = .error e) : step s = .next (endStep (skipUnknown s)) := by
  simp [step, hs.1, hs.2, hw, hd]

theorem step_of_decoded {s : State} {w : Word} {i : Instr} (hs : Live s) (hw : fetchWord s = .ok w)
    (hd : decode w = .ok i) : step s = finishStep (exec i s) := by
  simp [step, hs.1, hs.2, hw, hd]

/-- A live core's step goes on: no refusal (70_reset_and_hazards.md R324). -/
theorem step_of_live {s : State} (hs : Live s) : ∃ t, step s = .next t := by
  cases hw : fetchWord s with
  | error r => exact ⟨_, step_of_fetch_error hs hw⟩
  | ok w =>
    cases hd : decode w with
    | error e => exact ⟨_, step_of_unknown hs hw hd⟩
    | ok i =>
      obtain ⟨u, hu, -⟩ := exec_endsWell i s
      exact ⟨endStep u, by rw [step_of_decoded hs hw hd, hu, finishStep]⟩

theorem stepReport_of_decoded {s t : State} {w : Word} {i : Instr} (hf : t.faulted = false)
    (hw : fetchWord s = .ok w) (hd : decode w = .ok i) : stepReport s t = .ok := by
  simp [stepReport, hf, hw, hd]

theorem stepReport_ne_refused (s t : State) (r : Refusal) : stepReport s t ≠ .refused r := by
  unfold stepReport
  split
  · exact nofun
  · split
    · exact nofun
    · split <;> exact nofun

end Sys2Proof.Machine
end

section
/-! The obligations of 10_state.md: the invariant, the frames, the step's own rules and the host operations. -/

namespace Sys2Proof.Proofs

open Machine

/-- Settles O15, by induction on the sequence of operations, each of which keeps the invariant. -/
theorem runsKeepInv : Obligations.RunsKeepInv :=
  fun ops _ hs => inv_runOps ops hs

/-- Settles O16, from what each host operation can change. -/
theorem hostOpFrames : Obligations.HostOpFrames := by
  intro op s hf
  cases op with
  | load bytes =>
    simp only [hostOp]
    rcases load_cases bytes s with h | ⟨-, h⟩ <;> simp [h]
  | step =>
    refine ⟨fun _ => ?_, fun h => absurd rfl h, fun h => absurd rfl h⟩
    rcases stepOp_cases s with h | h
    · exact step_key h hf
    · exact congrArg State.key h
  | pollFramebuffer =>
    simp [hostOp, pollFramebuffer_state]
  | setKey index b =>
    refine ⟨fun h => absurd rfl (h index b), ?_⟩
    simp only [hostOp]
    rw [setKey_state]
    simp
  | soundActive => simp [hostOp]
  | tick => simp [hostOp, tickOp, tickOpWith, timerTick]

/-- Settles O17, from the shapes a completed instruction can have. -/
theorem onlyNamedRegistersChange : Obligations.OnlyNamedRegistersChange :=
  fun _ _ _ h hf _ hr hflag => (completed_of_exec h hf).v hr hflag

/-- Settles O18, from the shapes a completed instruction can have, one field at a time. -/
theorem onlyTheirInstructionsWrite : Obligations.OnlyTheirInstructionsWrite := by
  intro i s t h hf
  have hc := completed_of_exec h hf
  exact ⟨hc.key, hc.loaded, hc.faulted, hc.I, hc.stack, hc.DT, hc.ST, hc.display, hc.mem⟩

/-- Settles O48, from the three ways load ends and the read after a block write. -/
theorem loadCopiesTheImage : Obligations.LoadCopiesTheImage := by
  intro bytes s hm
  refine ⟨load_of_loaded, load_of_too_large, fun hl hlen => ⟨_, load_of_fits hl hlen, rfl, ?_, ?_, rfl⟩⟩
  all_goals have hfits : progBase + bytes.length ≤ memSize := by simp only [progBase, memSize]; omega
  · intro j hj
    show (s.mem.setAll progBase bytes).get (0x200 + j) = bytes[j]
    rw [Memory.get_setAll hm bytes hfits, dif_pos (by simp only [progBase]; omega)]
    simp [progBase]
  · exact fun a ha => Memory.get_setAll_outside hm hfits ha

/-- Settles O6: the fetch below 0xFFF gives the two bytes, and the end of the step ticks unless it faulted. -/
theorem stepRunsDecoded : Obligations.StepRunsDecoded := by
  intro s i hs hpc hd u hu
  have hw := fetchWord_of_le hpc
  have hstep : step s = .next (endStep u) := by rw [step_of_decoded hs hw hd, hu, finishStep]
  refine ⟨fun hf => ?_, fun hf => ⟨tick u, rfl, ?_⟩⟩
  · rw [hstep, endStep_eq, if_pos hf]
  · have hnext : step s = .next (tick u) := by rw [hstep, endStep_eq, if_neg (by simp [hf])]
    refine ⟨hnext, ?_⟩
    rw [stepOp_of_next hnext, stepReport_of_decoded (t := tick u) hf hw hd]

/-- Settles O8: the two refusals in their order, and a live core's step answers a next state. -/
theorem refusedStepsChangeNothing : Obligations.RefusedStepsChangeNothing := by
  refine ⟨fun s hf => ?_, fun s hf hl => ?_, fun s hs => ?_⟩
  · exact ⟨step_of_faulted hf, stepOp_of_refused (step_of_faulted hf)⟩
  · exact ⟨step_of_not_loaded hf hl, stepOp_of_refused (step_of_not_loaded hf hl)⟩
  · obtain ⟨t, ht⟩ := step_of_live hs
    rw [stepOp_of_next ht]
    exact ⟨t, ht, rfl, stepReport_ne_refused s t⟩

/-- Settles O49, from the two ways pollFramebuffer and setKey end, and the value ST is compared with. -/
theorem hostReadsAndKeys : Obligations.HostReadsAndKeys := by
  refine ⟨fun s hd => ?_, fun s hd => ?_, fun index b s hi => ?_, fun index b s hi => setKey_of_ge hi, fun s => ?_⟩
  · refine ⟨s.FB.view, if_pos hd, ?_, fun k hk => ?_⟩
    · simp only [Framebuffer.view, List.length_map, List.length_range]
    · simp only [Framebuffer.view, List.getElem?_map, List.getElem?_range hk, Option.map_some]
  · exact if_neg (by simp [hd])
  · refine ⟨_, setKey_of_lt hi, fun k hk => ?_, rfl⟩
    show (s.key.set index b)[k] = _
    simp only [Vector.getElem_set, eq_comm]
  · simp [soundActive, BitVec.toNat_eq]

end Sys2Proof.Proofs
end

section
/-! SUPPORT. What a completed store leaves in memory, and what a fetch reads there (20_memory.md R83). -/

namespace Sys2Proof.Machine

/-- Both storing instructions are one store at I, then pc + 2 (42_memory_index.md R203, R204). -/
theorem exec_of_stores {i : Instr} {s : State} {bytes : List Byte} (h : Stores i s bytes) :
    exec i s = settle s ((storeAtI s bytes).map (fun t => t.goto .inc2)) := by
  rcases bytes_of_stores h with ⟨x, rfl, rfl⟩ | ⟨x, rfl, rfl⟩
  · rfl
  · rfl

/-- A storing instruction that completes moves pc by 2 and leaves the stored bytes over the old ones. -/
theorem pc_mem_of_completed_store {i : Instr} {s t : State} {bytes : List Byte} (hm : s.mem.wf)
    (hi : Stores i s bytes) (h : exec i s = .next t) (hf : t.faulted = false) :
    t.pc = s.pc + 2#16 ∧ ∀ a, t.mem.get a = byteAfterStore s bytes a := by
  rw [exec_of_stores hi] at h
  cases hstore : storeAtI s bytes with
  | error r =>
    rw [hstore, settle_map_error] at h
    obtain rfl := Host.Outcome.next.inj h
    exact nomatch hf
  | ok u =>
    rw [hstore, settle_map_ok] at h
    obtain rfl := Host.Outcome.next.inj h
    obtain ⟨-, hget, hframe⟩ := storeAtI_ok hm hstore
    have hpc : u.pc = s.pc := by rw [hframe]
    exact ⟨congrArg (· + 2#16) hpc, hget⟩

/-- The pc after an instruction of two bytes, as a number. -/
theorem toNat_pc_add_two {s : State} (h : s.pc.toNat ≤ 0xFFE) : (s.pc + 2#16).toNat = s.pc.toNat + 2 := by
  rw [BitVec.toNat_add, BitVec.toNat_ofNat]
  omega

end Sys2Proof.Machine
end

section
/-! The obligations of 20_memory.md: the invariant of a step, stored code, and the bounds-checked accessors. -/

namespace Sys2Proof.Proofs

open Machine

/-- Settles O13, by the ways a step can end: a fault entry, a skipped word, or a completed instruction. -/
theorem stepKeepsInv : Obligations.StepKeepsInv :=
  fun _ _ hs h => inv_of_step hs h

/-- Settles O39: a fetch reads whatever memory holds at its pc, and the next fetch is the one at pc + 2. -/
theorem storedCodeIsFetched : Obligations.StoredCodeIsFetched := by
  intro i s t bytes hm hi h hf
  obtain ⟨hpc, hmem⟩ := pc_mem_of_completed_store hm hi h hf
  have hfetch : ∀ u : State, u.mem = t.mem → u.pc.toNat ≤ 0xFFE → fetchWord u =
      .ok (wordOfBytes (byteAfterStore s bytes u.pc.toNat) (byteAfterStore s bytes (u.pc.toNat + 1))) := by
    intro u hu hle
    rw [fetchWord_of_le hle, hu, hmem, hmem]
  refine ⟨fun hle => ?_, hfetch⟩
  have hnext : t.pc.toNat = s.pc.toNat + 2 := by rw [hpc, toNat_pc_add_two (by omega)]
  rw [hfetch t rfl (by omega), hnext]

/-- Settles O38, from what a read and a write do inside and outside their ranges. -/
theorem boundsCheckedAccess : Obligations.BoundsCheckedAccess := by
  intro m a v space hm
  refine ⟨memRead_of_lt, memRead_of_ge, fun hlo hhi => ?_, fun hout => memWrite_of_outside hout.symm⟩
  refine ⟨m.set a v, memWrite_of_inside hlo hhi, Memory.wf_set hm hhi v, ?_, fun b hb => ?_⟩
  · rw [Memory.get_set m hm, if_pos rfl]
  · rw [Memory.get_set m hm, if_neg hb]

end Sys2Proof.Proofs
end

section
/-! SUPPORT. What the decoder, the encoder and the table of 30_encoding.md R120 say of one word. -/

namespace Sys2Proof

/-! The one overlap of the table (30_encoding.md R107). -/

/-- The only ill-formed terms are the two SYS whose words are CLS and RET. -/
theorem Instr.wf_or_overlap (i : Instr) : i.wf = true ∨ i = .sys 0x0E0#12 ∨ i = .sys 0x0EE#12 := by
  cases i with
  | sys nnn =>
    by_cases h : nnn = 0x0E0#12 ∨ nnn = 0x0EE#12
    · simpa using .inr h
    · simpa [Instr.wf, sysOperandOk] using .inl (not_or.1 h)
  | _ => exact .inl rfl

/-! Decoding an encoded word (30_encoding.md R103, R104). -/

theorem decodeOp_of_class {w : Word} {c : Nibble} (hw : classNibble w = c) (hc : c ≠ 0#4) :
    decodeOp w = decodeClass c (fields w) := by
  subst hw
  exact decodeOp_of_class_ne hc

theorem decodeOp_encode_sys {nnn : Imm12} (h : sysOperandOk nnn = true) :
    decodeOp (encode (.sys nnn)) = some (.sys nnn) := by
  obtain ⟨hcls, hret⟩ : nnn ≠ 0x0E0#12 ∧ nnn ≠ 0x0EE#12 := by simpa [sysOperandOk] using h
  have hfield : ∀ {w : Word}, encNNN 0x0#4 nnn = w → nnn = (fields w).nnn := by
    rintro _ rfl
    rw [nnn_encNNN]
  have hne1 : encNNN 0x0#4 nnn ≠ 0x00E0#16 := fun h => hcls (hfield h)
  have hne2 : encNNN 0x0#4 nnn ≠ 0x00EE#16 := fun h => hret (hfield h)
  simp [encode, decodeOp, hne1, hne2, decodeClass]

/-- A well-formed instruction is what its word decodes to. -/
theorem decodeOp_encode {i : Instr} (h : i.wf = true) : decodeOp (encode i) = some i := by
  cases i with
  | cls | ret => rfl
  | sys nnn => exact decodeOp_encode_sys h
  | jp _ | call _ | jpV0 _ | ldI _ =>
    refine (decodeOp_of_class (classNibble_encNNN _ _) (by decide)).trans ?_
    simp [decodeClass]
  | seImm _ _ | sneImm _ _ | ldImm _ _ | addImm _ _ | rnd _ _ | skp _ | sknp _ | addI _ | ldF _ | ldB _ | stRegs _
  | ldRegs _ | ldK _ | ldVxDt _ | ldDt _ | ldSt _ =>
    refine (decodeOp_of_class (classNibble_encXNN _ _ _) (by decide)).trans ?_
    simp [decodeClass, decodeKeys, decodeMisc]
  | seReg _ _ | sneReg _ _ | drw _ _ _ | ldReg _ _ | or _ _ | and _ _ | xor _ _ | addReg _ _ | sub _ _ | shr _ _
  | subn _ _ | shl _ _ =>
    refine (decodeOp_of_class (classNibble_encXYN _ _ _ _) (by decide)).trans ?_
    simp [decodeClass, decodeIfZero, decodeAlu]

/-! Encoding a word's own fields gives the word back where its literal parts are those of the format. -/

theorem encNNN_eq_iff {w : Word} {c : Nibble} : encNNN c (fields w).nnn = w ↔ classNibble w = c := by
  constructor
  · intro h
    rw [← h, classNibble_encNNN]
  · rintro rfl
    exact (word_eq_encNNN w).symm

theorem encXNN_eq_iff {w : Word} {c : Nibble} {nn : Byte} :
    encXNN c (fields w).x nn = w ↔ classNibble w = c ∧ (fields w).nn = nn := by
  constructor
  · intro h
    rw [← h, classNibble_encXNN, nn_encXNN]
    exact ⟨rfl, rfl⟩
  · rintro ⟨rfl, rfl⟩
    exact (word_eq_encXNN w).symm

theorem encXYN_eq_iff {w : Word} {c n : Nibble} :
    encXYN c (fields w).x (fields w).y n = w ↔ classNibble w = c ∧ (fields w).n = n := by
  constructor
  · intro h
    rw [← h, classNibble_encXYN, n_encXYN]
    exact ⟨rfl, rfl⟩
  · rintro ⟨rfl, rfl⟩
    exact (word_eq_encXYN w).symm

/-! Encoding what a word decodes to gives the word, along the decoder's own split (30_encoding.md R108 to R110). -/

theorem encode_of_decodeAlu {w : Word} {i : Instr} (hc : classNibble w = 0x8#4)
    (h : decodeAlu (fields w) = some i) : encode i = w := by
  unfold decodeAlu at h
  split at h
  case h_10 => exact nomatch h
  all_goals
    next hn =>
    obtain rfl := Option.some.inj h
    exact encXYN_eq_iff.2 ⟨hc, BitVec.eq_of_toNat_eq hn⟩

theorem encode_of_decodeKeys {w : Word} {i : Instr} (hc : classNibble w = 0xE#4)
    (h : decodeKeys (fields w) = some i) : encode i = w := by
  unfold decodeKeys at h
  split at h
  case h_3 => exact nomatch h
  all_goals
    next hn =>
    obtain rfl := Option.some.inj h
    exact encXNN_eq_iff.2 ⟨hc, BitVec.eq_of_toNat_eq hn⟩

theorem encode_of_decodeMisc {w : Word} {i : Instr} (hc : classNibble w = 0xF#4)
    (h : decodeMisc (fields w) = some i) : encode i = w := by
  unfold decodeMisc at h
  split at h
  case h_10 => exact nomatch h
  all_goals
    next hn =>
    obtain rfl := Option.some.inj h
    exact encXNN_eq_iff.2 ⟨hc, BitVec.eq_of_toNat_eq hn⟩

theorem decodeIfZero_eq_some_iff {f : Fields} {i j : Instr} :
    decodeIfZero f j = some i ↔ f.n = 0#4 ∧ j = i := by
  simp [decodeIfZero]

theorem encode_of_decodeClass {w : Word} {i : Instr} (h : decodeClass (classNibble w) (fields w) = some i) :
    encode i = w := by
  unfold decodeClass at h
  split at h
  -- Branch h_k is class k - 1. Classes 0, 1, 2, A, B: format NNN.
  case h_1 hc | h_2 hc | h_3 hc | h_11 hc | h_12 hc =>
    obtain rfl := Option.some.inj h
    exact encNNN_eq_iff.2 (BitVec.eq_of_toNat_eq hc)
  -- Classes 3, 4, 6, 7, C: format XNN.
  case h_4 hc | h_5 hc | h_7 hc | h_8 hc | h_13 hc =>
    obtain rfl := Option.some.inj h
    exact encXNN_eq_iff.2 ⟨BitVec.eq_of_toNat_eq hc, rfl⟩
  -- Class D: format XYN.
  case h_14 hc =>
    obtain rfl := Option.some.inj h
    exact encXYN_eq_iff.2 ⟨BitVec.eq_of_toNat_eq hc, rfl⟩
  -- Classes 5 and 9: format XY with function nibble 0.
  case h_6 hc | h_10 hc =>
    obtain ⟨hn, rfl⟩ := decodeIfZero_eq_some_iff.1 h
    exact encXYN_eq_iff.2 ⟨BitVec.eq_of_toNat_eq hc, hn⟩
  -- Classes 8, E, F: the groups.
  case h_9 hc => exact encode_of_decodeAlu (BitVec.eq_of_toNat_eq hc) h
  case h_15 hc => exact encode_of_decodeKeys (BitVec.eq_of_toNat_eq hc) h
  case h_16 hc => exact encode_of_decodeMisc (BitVec.eq_of_toNat_eq hc) h
  case h_17 => exact nomatch h

theorem encode_of_decodeOp {w : Word} {i : Instr} (h : decodeOp w = some i) : encode i = w := by
  unfold decodeOp at h
  split at h
  · next hw =>
    obtain rfl := Option.some.inj h
    exact hw.symm
  · split at h
    · next hw =>
      obtain rfl := Option.some.inj h
      exact hw.symm
    · exact encode_of_decodeClass h

/-- No word decodes to an ill-formed term: the words of those two are CLS and RET (30_encoding.md R107). -/
theorem wf_of_decodeOp {w : Word} {i : Instr} (h : decodeOp w = some i) : i.wf = true := by
  rcases i.wf_or_overlap with hwf | rfl | rfl
  · exact hwf
  · obtain rfl := encode_of_decodeOp h
    exact absurd h (by decide)
  · obtain rfl := encode_of_decodeOp h
    exact absurd h (by decide)

/-! When the decoder, and each of its groups, finds no instruction (30_encoding.md R111). -/

theorem decodeAlu_eq_none_iff (f : Fields) : decodeAlu f = none ↔ 8 ≤ f.n.toNat ∧ f.n ≠ 0xE#4 := by
  obtain ⟨x, y, ⟨⟨n, hn⟩⟩, nn, nnn⟩ := f
  interval_cases n <;> simp [decodeAlu]

theorem decodeKeys_eq_none_iff (f : Fields) : decodeKeys f = none ↔ f.nn ≠ 0x9E#8 ∧ f.nn ≠ 0xA1#8 := by
  unfold decodeKeys
  split <;> simp_all [BitVec.toNat_eq]

theorem decodeMisc_eq_none_iff (f : Fields) :
    decodeMisc f = none ↔
      f.nn ∉ [0x07#8, 0x0A#8, 0x15#8, 0x18#8, 0x1E#8, 0x29#8, 0x33#8, 0x55#8, 0x65#8] := by
  unfold decodeMisc
  split <;> simp_all [BitVec.toNat_eq]

theorem decodeIfZero_eq_none_iff (f : Fields) (i : Instr) : decodeIfZero f i = none ↔ f.n ≠ 0#4 := by
  simp [decodeIfZero]

theorem decodeClass_eq_none_iff (c : Nibble) (f : Fields) :
    decodeClass c f = none ↔
      (c = 0x5#4 ∧ decodeIfZero f (.seReg f.x f.y) = none) ∨ (c = 0x8#4 ∧ decodeAlu f = none) ∨
      (c = 0x9#4 ∧ decodeIfZero f (.sneReg f.x f.y) = none) ∨ (c = 0xE#4 ∧ decodeKeys f = none) ∨
      (c = 0xF#4 ∧ decodeMisc f = none) := by
  obtain ⟨⟨k, hk⟩⟩ := c
  interval_cases k <;> simp [decodeClass]

theorem decodeOp_eq_none_iff (w : Word) : decodeOp w = none ↔ decodeClass (classNibble w) (fields w) = none := by
  by_cases h1 : w = 0x00E0#16
  · subst h1; decide
  by_cases h2 : w = 0x00EE#16
  · subst h2; decide
  rw [decodeOp, if_neg h1, if_neg h2]

/-! The rows of the table (30_encoding.md R120). -/

/-- The mask of a row that stands for one word. -/
theorem fits_word_iff (m w : Word) : (w &&& 0xFFFF#16 == m) = true ↔ m = w := by
  rw [beq_iff_eq, show (0xFFFF#16) = BitVec.allOnes 16 from rfl, BitVec.and_allOnes, eq_comm]

/-- The rows stand in the order of the constructors. -/
theorem ctorIdx_rows (f : Fields) : opcodeTable.map (fun r => (r.build f).ctorIdx) = List.range 35 := rfl

/-- The mask of a row of format NNN. -/
theorem fits_NNN_iff (c : Nibble) (w : Word) :
    (w &&& 0xF000#16 == encNNN c 0#12) = true ↔ encNNN c (fields w).nnn = w := by
  rw [beq_iff_eq, and_class_eq_iff, encNNN_eq_iff]

/-- The same mask on a row of format XNN. -/
theorem fits_XNN_iff (c : Nibble) (w : Word) :
    (w &&& 0xF000#16 == encNNN c 0#12) = true ↔ encXNN c (fields w).x (fields w).nn = w := by
  rw [beq_iff_eq, and_class_eq_iff, encXNN_eq_iff, and_iff_left rfl]

/-- The same mask on a row of format XYN. -/
theorem fits_XYN_iff (c : Nibble) (w : Word) :
    (w &&& 0xF000#16 == encNNN c 0#12) = true ↔ encXYN c (fields w).x (fields w).y (fields w).n = w := by
  rw [beq_iff_eq, and_class_eq_iff, encXYN_eq_iff, and_iff_left rfl]

/-- The mask of a row of format XY: the function nibble n is literal. -/
theorem fits_XY_iff (c n : Nibble) (w : Word) :
    (w &&& 0xF00F#16 == encXYN c 0 0 n) = true ↔ encXYN c (fields w).x (fields w).y n = w := by
  rw [beq_iff_eq, and_function_eq_iff, encXYN_eq_iff]

/-- The mask of a row of format X: the low byte is literal. -/
theorem fits_X_iff (c : Nibble) (nn : Byte) (w : Word) :
    (w &&& 0xF0FF#16 == encXNN c 0 nn) = true ↔ encXNN c (fields w).x nn = w := by
  rw [beq_iff_eq, and_low_eq_iff, encXNN_eq_iff]

/-- A row fits exactly the words of the instructions it builds. -/
def TableRow.Sound (r : TableRow) : Prop :=
  ∀ w, r.fits w = true ↔ encode (r.build (fields w)) = w

theorem controlRows_sound : ∀ r ∈ controlRows, r.Sound := by
  simp only [controlRows, List.forall_mem_cons]
  exact ⟨fits_word_iff _, fits_word_iff _, fits_NNN_iff 0x0#4, fits_NNN_iff 0x1#4, fits_NNN_iff 0x2#4,
    fits_XNN_iff 0x3#4, fits_XNN_iff 0x4#4, fits_XY_iff 0x5#4 0x0#4, fits_XY_iff 0x9#4 0x0#4,
    fits_NNN_iff 0xB#4, nofun⟩

theorem aluRows_sound : ∀ r ∈ aluRows, r.Sound := by
  simp only [aluRows, List.forall_mem_cons]
  exact ⟨fits_XNN_iff 0x6#4, fits_XNN_iff 0x7#4, fits_XY_iff 0x8#4 0x0#4, fits_XY_iff 0x8#4 0x1#4,
    fits_XY_iff 0x8#4 0x2#4, fits_XY_iff 0x8#4 0x3#4, fits_XY_iff 0x8#4 0x4#4, fits_XY_iff 0x8#4 0x5#4,
    fits_XY_iff 0x8#4 0x6#4, fits_XY_iff 0x8#4 0x7#4, fits_XY_iff 0x8#4 0xE#4, fits_XNN_iff 0xC#4, nofun⟩

theorem memoryRows_sound : ∀ r ∈ memoryRows, r.Sound := by
  simp only [memoryRows, List.forall_mem_cons]
  exact ⟨fits_NNN_iff 0xA#4, fits_X_iff 0xF#4 0x1E#8, fits_X_iff 0xF#4 0x29#8, fits_X_iff 0xF#4 0x33#8,
    fits_X_iff 0xF#4 0x55#8, fits_X_iff 0xF#4 0x65#8, fits_XYN_iff 0xD#4, fits_X_iff 0xE#4 0x9E#8,
    fits_X_iff 0xE#4 0xA1#8, fits_X_iff 0xF#4 0x0A#8, fits_X_iff 0xF#4 0x07#8, fits_X_iff 0xF#4 0x15#8,
    fits_X_iff 0xF#4 0x18#8, nofun⟩

theorem opcodeTable_sound {r : TableRow} (hr : r ∈ opcodeTable) : r.Sound := by
  rcases List.mem_append.1 hr with hr | hr
  · rcases List.mem_append.1 hr with hr | hr
    · exact controlRows_sound r hr
    · exact aluRows_sound r hr
  · exact memoryRows_sound r hr

/-- The row at an instruction's place in the table builds it back from its word: each format gives its fields back. -/
theorem build_encode (i : Instr) : ∃ r, opcodeTable[i.ctorIdx]? = some r ∧ r.build (fields (encode i)) = i := by
  cases i <;> refine ⟨_, rfl, ?_⟩ <;> simp [encode]

/-- A word that decodes fits a row of the table. -/
theorem exists_fits_of_decodeOp {w : Word} {i : Instr} (h : decodeOp w = some i) :
    ∃ r ∈ opcodeTable, r.fits w = true := by
  obtain rfl := encode_of_decodeOp h
  obtain ⟨r, hrow, hi⟩ := build_encode i
  have hr : r ∈ opcodeTable := List.mem_of_getElem? hrow
  exact ⟨r, hr, (opcodeTable_sound hr _).2 (congrArg encode hi)⟩

/-- A row that fits a word other than CLS and RET builds what the word decodes to. -/
theorem decodeOp_of_fits {r : TableRow} {w : Word} (hr : r ∈ opcodeTable) (hfit : r.fits w = true)
    (hw : ¬ (w = 0x00E0#16 ∨ w = 0x00EE#16)) : decodeOp w = some (r.build (fields w)) := by
  have he := (opcodeTable_sound hr w).1 hfit
  rcases (r.build (fields w)).wf_or_overlap with hwf | hi | hi
  · rw [← decodeOp_encode hwf, he]
  · exact absurd (.inl (he ▸ congrArg encode hi)) hw
  · exact absurd (.inr (he ▸ congrArg encode hi)) hw

/-- Two rows build different instructions. -/
theorem rows_build_ne (f : Fields) : opcodeTable.Pairwise (fun r q => r.build f ≠ q.build f) := by
  have h : (opcodeTable.map (fun r => (r.build f).ctorIdx)).Pairwise (· < ·) := by
    rw [ctorIdx_rows]
    exact List.pairwise_lt_range
  exact (List.pairwise_map.1 h).imp fun hlt he => absurd (congrArg Instr.ctorIdx he) (Nat.ne_of_lt hlt)

/-! The selection of the best row (30_encoding.md R107). -/

theorem foldl_betterRow_mem (rows : List TableRow) (b : TableRow) :
    ∃ r ∈ b :: rows, rows.foldl betterRow (some b) = some r := by
  induction rows generalizing b with
  | nil => exact ⟨b, List.mem_singleton_self b, rfl⟩
  | cons q rows ih =>
    obtain ⟨r, hr, hfold⟩ := ih (if q.prio < b.prio then q else b)
    refine ⟨r, ?_, ?_⟩
    · split at hr
      · exact List.mem_cons_of_mem b hr
      · exact List.mem_cons.2 ((List.mem_cons.1 hr).imp_right (List.mem_cons_of_mem q))
    · rw [List.foldl_cons, betterRow, ← hfold]
      split <;> rfl

/-- The selection answers a row that fits, or none where no row fits. -/
theorem selectRow_cases (w : Word) :
    (selectRow w = none ∧ ∀ r ∈ opcodeTable, ¬ r.fits w = true) ∨
      ∃ r ∈ opcodeTable, r.fits w = true ∧ selectRow w = some r := by
  unfold selectRow
  cases hrows : opcodeTable.filter (fun r => r.fits w) with
  | nil => exact .inl ⟨rfl, List.filter_eq_nil_iff.1 hrows⟩
  | cons b rows =>
    obtain ⟨r, hr, hsel⟩ := foldl_betterRow_mem rows b
    obtain ⟨hmem, hfit⟩ := List.mem_filter.1 (hrows ▸ hr)
    exact .inr ⟨r, hmem, hfit, hsel⟩

/-- The decoder is the selection over the table. -/
theorem tableDecode_eq (w : Word) : tableDecode w = decodeOp w := by
  by_cases hw : w = 0x00E0#16 ∨ w = 0x00EE#16
  · rcases hw with rfl | rfl <;> rfl
  · rcases selectRow_cases w with ⟨hsel, hnone⟩ | ⟨r, hr, hfit, hsel⟩
    · rw [tableDecode, hsel]
      refine (Option.eq_none_iff_forall_ne_some.2 fun i hi => ?_).symm
      obtain ⟨r, hr, hfit⟩ := exists_fits_of_decodeOp hi
      exact hnone r hr hfit
    · rw [tableDecode, hsel, decodeOp_of_fits hr hfit hw]
      rfl

/-! The bytes of a fetched word (30_encoding.md R101). -/

theorem highByte_wordOfBytes (hi lo : Byte) : (wordOfBytes hi lo).extractLsb' 8 8 = hi :=
  BitVec.extractLsb'_append_eq_left

theorem lowByte_wordOfBytes (hi lo : Byte) : (wordOfBytes hi lo).extractLsb' 0 8 = lo :=
  BitVec.extractLsb'_append_eq_right

end Sys2Proof
end

section
/-! SUPPORT. A step on an UNKNOWN word and a step whose fetch is outside memory (30_encoding.md R101, R112). -/

namespace Sys2Proof.Machine

/-- A step that has not faulted ends with the tick (10_state.md R50). -/
theorem endStep_of_not_faulted {s : State} (h : s.faulted = false) : endStep s = tick s := by
  rw [endStep_eq, if_neg (by simp [h])]

theorem stepReport_of_unknown {s t : State} {w : Word} {e : DecodeError} (hf : t.faulted = false)
    (hw : fetchWord s = .ok w) (hd : decode w = .error e) : stepReport s t = .unknownOpcode w := by
  simp [stepReport, hf, hw, hd]

/-- A live core whose pc is past the last fetchable address takes the fault entry. -/
theorem step_of_pc_gt {s : State} (hs : Live s) (h : 0xFFE < s.pc.toNat) :
    ∃ t, step s = .next t ∧ FaultedWith t .memFetch (max s.pc.toNat 0x1000) s.pc :=
  ⟨_, step_of_fetch_error hs (fetchWord_of_gt h), rfl, rfl⟩

end Sys2Proof.Machine
end
section
/-! The obligations of 30_encoding.md: the decoder, the encoder and the table, and the step on what is fetched. -/

namespace Sys2Proof.Proofs

open Machine

/-- Settles O1, format by format: each gives back its fields, and its class nibble selects the arm. -/
theorem decodeEncode : Obligations.DecodeEncode :=
  fun _ h => decode_ok_iff.2 (decodeOp_encode h)

/-- Settles O2, along the decoder's own split: in each arm the word is made of the fields the arm passes on. -/
theorem encodeDecode : Obligations.EncodeDecode := by
  intro w i h
  have hd := decode_ok_iff.1 h
  exact ⟨wf_of_decodeOp hd, encode_of_decodeOp hd⟩

/-- Settles O3: a row fits exactly the words of the instructions it builds, so away from CLS and RET all rows that fit
build what the word decodes to, and two rows never build the same instruction. -/
theorem decodeSelectsTableRow : Obligations.DecodeSelectsTableRow := by
  refine ⟨fun w => ?_, List.pairwise_iff_forall_sublist.2 fun {r q} hsub w hr hq => ?_, rfl, rfl⟩
  · rw [tableDecode_eq]
    rfl
  · by_contra hw
    have hne := List.pairwise_iff_forall_sublist.1 (rows_build_ne (fields w)) hsub
    have hdr := decodeOp_of_fits (hsub.subset (by simp)) hr hw
    have hdq := decodeOp_of_fits (hsub.subset (by simp)) hq hw
    exact hne (Option.some.inj (hdr.symm.trans hdq))

/-- Settles O4, from when each group of the opcode map finds nothing. -/
theorem unknownWords : Obligations.UnknownWords := by
  intro w
  rw [decode_error_iff, decodeOp_eq_none_iff, decodeClass_eq_none_iff, decodeIfZero_eq_none_iff,
    decodeIfZero_eq_none_iff, decodeAlu_eq_none_iff, decodeKeys_eq_none_iff, decodeMisc_eq_none_iff]

/-- Settles O5, by running the decoder on the nine words. -/
theorem writtenWords : Obligations.WrittenWords := by
  unfold Obligations.WrittenWords
  decide

/-- Settles O7: the fetch gives the word, the step skips it, and its end ticks, for a skip is no fault. -/
theorem unknownWordIsSkipped : Obligations.UnknownWordIsSkipped := by
  intro s w hs hpc hbytes hd
  have hw : fetchWord s = .ok w := by rw [fetchWord_of_le hpc, hbytes]
  have hf : (skipUnknown s).faulted = false := hs.2
  have hstep : step s = .next (tick (skipUnknown s)) := by rw [step_of_unknown hs hw hd, endStep_of_not_faulted hf]
  refine ⟨_, hstep, ?_, rfl, hf, decay_toNat s.DT, decay_toNat s.ST, rfl⟩
  rw [stepOp_of_next hstep, stepReport_of_unknown (t := tick (skipUnknown s)) hf hw hd]

/-- Settles O9: below 0xFFF the fetch gives both bytes; past 0xFFE it raises at the first address outside memory. -/
theorem fetchReadsOrFaults : Obligations.FetchReadsOrFaults := by
  refine ⟨fun s hpc => ?_, fun s hs hpc => ?_, fun s hs hpc => ?_⟩
  · exact ⟨_, fetchWord_of_le hpc, highByte_wordOfBytes _ _, lowByte_wordOfBytes _ _⟩
  · have h := step_of_pc_gt hs (by omega)
    rwa [max_eq_right (by omega)] at h
  · have h := step_of_pc_gt hs (by omega)
    rwa [max_eq_left hpc] at h

end Sys2Proof.Proofs
end

section
/-! SUPPORT. What the control instructions do (40_control_flow.md R141 to R150): CALL and RET by the stack pointer they
start from, and where the jumps and skips lead. -/

namespace Sys2Proof.Machine

/-! CALL and RET, completed and faulting (10_state.md R30, 40_control_flow.md R142, R144). -/

theorem exec_call_of_lt {nnn : Imm12} {s : State} (h : s.sp.val < 16) :
    exec (.call nnn) s = .next
      (({ s with S := s.S.set s.sp.val s.pc h, sp := ⟨s.sp.val + 1, by omega⟩ } : State).goto (.abs nnn)) := by
  rw [exec, execCall, push_of_lt h, settle_map_ok]

theorem exec_call_of_full {nnn : Imm12} {s : State} (h : s.sp.val = 16) :
    exec (.call nnn) s = .next (enterFault s ⟨.stackOverflow, 16⟩) := by
  rw [exec, execCall, push_of_full h, settle_map_error]

theorem exec_ret_of_pos {s : State} (h : s.sp.val ≠ 0) :
    exec .ret s = .next (({ s with sp := ⟨s.sp.val - 1, by omega⟩ } : State).goto
      (.ret (s.S[s.sp.val - 1]'(by omega)))) := by
  rw [exec, execRet, pop_of_pos h, settle_map_ok]

theorem exec_ret_of_empty {s : State} (h : s.sp.val = 0) :
    exec .ret s = .next (enterFault s ⟨.stackUnderflow, 0⟩) := by
  rw [exec, execRet, pop_of_empty h, settle_map_error]

/-- RET with n entries below a known top entry. -/
theorem exec_ret_of_top {s : State} {n : Nat} {entry : Word} (hn : n < 16) (hsp : s.sp.val = n + 1)
    (htop : s.S[n] = entry) :
    exec .ret s = .next (({ s with sp := ⟨n, by omega⟩ } : State).goto (.ret entry)) := by
  subst htop
  simp only [exec_ret_of_pos (s := s) (by omega), hsp, Nat.add_sub_cancel]

/-- The fault entry says so and keeps the record (60_exceptions.md R286). -/
theorem enterFault_faultedWith (s : State) (space : FaultSpace) (value : Nat) :
    FaultedWith (enterFault s ⟨space, value⟩) space value s.pc :=
  ⟨rfl, rfl⟩

/-! pc after a jump, as a number (10_state.md R26), and after a skip. -/

theorem toNat_pc_goto_abs (s : State) (nnn : Imm12) : (s.goto (.abs nnn)).pc.toNat = nnn.toNat := by
  have := nnn.isLt
  simp only [State.goto_pc, nextPc, BitVec.truncate_eq_setWidth, BitVec.toNat_setWidth]
  omega

/-- The largest sum, 0xFFF + 0xFF, fits in 16 bits. -/
theorem toNat_pc_goto_absV0 (s : State) (nnn : Imm12) :
    (s.goto (.absV0 nnn)).pc.toNat = nnn.toNat + (s.v 0).toNat := by
  have := nnn.isLt
  have := (s.v 0).isLt
  simp only [State.goto_pc, nextPc, BitVec.truncate_eq_setWidth, BitVec.toNat_add, BitVec.toNat_setWidth]
  omega

/-- A skip adds 4 or 2 to pc and changes nothing else (40_control_flow.md R150). -/
theorem pcOnly_skipIf_and_pc (s : State) {c : Bool} {p : Prop} [Decidable p] (h : c = true ↔ p) :
    PcOnly s (s.skipIf c) ∧ (s.skipIf c).pc = s.pc + if p then 4#16 else 2#16 := by
  refine ⟨rfl, ?_⟩
  cases c with
  | true => rw [if_pos (h.1 rfl)]; rfl
  | false => rw [if_neg fun hp => nomatch h.2 hp]; rfl

end Sys2Proof.Machine
end

section
/-! The obligations of 40_control_flow.md: CLS, RET, SYS, the jumps, CALL and the register skips. -/

namespace Sys2Proof.Proofs

open Machine

/-- Settles O24: the CALL leaves its own address on top of the stack, and a RET from that stack takes it back. -/
theorem returnUndoesCall : Obligations.ReturnUndoesCall := by
  intro nnn s h
  refine ⟨_, exec_call_of_lt h, fun u ⟨hS, hsp⟩ => ?_⟩
  have hcount : u.sp.val = s.sp.val + 1 := congrArg Fin.val hsp
  have htop : u.S[s.sp.val] = s.pc := by simp [hS]
  exact ⟨_, exec_ret_of_top h hcount htop, rfl, rfl, htop⟩

/-- Settles O19: SYS only takes the next-pc source pc + 2. -/
theorem sysIsANoOp : Obligations.SysIsANoOp :=
  fun nnn _ => ⟨Laws.TablePattern.sys nnn, _, rfl, rfl, rfl⟩

/-- Settles O20: the framebuffer CLS leaves is the blank one, whose cells are all 0. -/
theorem clsClearsTheScreen : Obligations.ClsClearsTheScreen :=
  fun _ => ⟨rfl, _, rfl, fun k _ => Framebuffer.cell_blank k, rfl, rfl, rfl⟩

/-- Settles O21, by whether the stack has an entry to pop. -/
theorem retReturns : Obligations.RetReturns :=
  ⟨rfl, fun _ h => ⟨_, exec_ret_of_pos h, rfl, rfl, rfl, rfl⟩,
    fun s h => ⟨_, exec_ret_of_empty h, enterFault_faultedWith s _ _⟩⟩

/-- Settles O22: neither target, as a number, wraps at 16 bits. -/
theorem jumpTargets : Obligations.JumpTargets :=
  fun nnn s => ⟨Laws.TablePattern.jp nnn, Laws.TablePattern.jpV0 nnn,
    ⟨_, rfl, toNat_pc_goto_abs s nnn, rfl⟩, ⟨_, rfl, toNat_pc_goto_absV0 s nnn, rfl⟩⟩

/-- Settles O23, by whether the stack has room for an entry. -/
theorem callPushesItsAddress : Obligations.CallPushesItsAddress := by
  intro nnn s
  refine ⟨Laws.TablePattern.call nnn, fun h => ?_, fun h => ?_⟩
  · refine ⟨_, exec_call_of_lt h, toNat_pc_goto_abs _ nnn, rfl, fun k hk => ?_, rfl⟩
    show (s.S.set s.sp.val s.pc h)[k] = _
    simp only [Vector.getElem_set, eq_comm]
  · exact ⟨_, exec_call_of_full h, enterFault_faultedWith s _ _⟩

/-- Settles O25: each skip is `skipIf` of its condition. -/
theorem registerSkips : Obligations.RegisterSkips := by
  intro x y nn s
  refine ⟨Laws.TablePattern.seImm x nn, Laws.TablePattern.sneImm x nn, Laws.TablePattern.seReg x y,
    Laws.TablePattern.sneReg x y, ⟨_, rfl, ?_⟩, ⟨_, rfl, ?_⟩, ⟨_, rfl, ?_⟩, ⟨_, rfl, ?_⟩⟩
  · exact pcOnly_skipIf_and_pc s beq_iff_eq
  · exact pcOnly_skipIf_and_pc s bne_iff_ne
  · exact pcOnly_skipIf_and_pc s beq_iff_eq
  · exact pcOnly_skipIf_and_pc s bne_iff_ne

end Sys2Proof.Proofs
end

section
/-! SUPPORT. What the register instructions leave (41_register_alu.md R169 to R181): a register and pc, or a register, the
flag and pc; and the flags and results as numbers. -/

namespace Sys2Proof.Machine

/-! One register written, and pc + 2 (10_state.md R21). -/

theorem State.v_setV_self (s : State) (x : Reg) (b : Byte) : (s.setV x b).v x = b :=
  (s.v_setV x x b).trans (if_pos rfl)

theorem sameVBut_setV (s : State) (x : Reg) (b : Byte) : SameVBut (fun r => r = x) s (s.setV x b) :=
  fun r hr => (s.v_setV x r b).trans (if_neg hr)

theorem writesV_setV_inc2 (s : State) (x : Reg) (b : Byte) : WritesV x s ((s.setV x b).goto .inc2) where
  v := sameVBut_setV s x b
  i := rfl
  elsewhere := ⟨⟨rfl, rfl⟩, ⟨rfl, rfl⟩, ⟨rfl, rfl⟩, rfl, ⟨rfl, rfl, rfl⟩, fun _ => rfl, rfl⟩

/-! A result and the flag written, and pc + 2: the flag comes last, so it is what VF holds (10_state.md R22). -/

theorem writesVAndFlag_setResultFlag_inc2 (s : State) (x : Reg) (r : Byte) (f : Bool) :
    WritesVAndFlag x s ((s.setResultFlag x r f).goto .inc2) where
  v q hq := by
    obtain ⟨hx, hF⟩ := not_or.1 hq
    rw [State.v_goto, State.v_setResultFlag, if_neg hF, if_neg hx]
  i := rfl
  elsewhere := ⟨⟨rfl, rfl⟩, ⟨rfl, rfl⟩, ⟨rfl, rfl⟩, rfl, ⟨rfl, rfl, rfl⟩, fun _ => rfl, rfl⟩

/-- All that a flag-setting instruction leaves, with its result and its flag as numbers. -/
theorem setResultFlag_inc2_spec (s : State) (x : Reg) {r : Byte} {f : Bool} {result flag : Nat}
    (hr : r.toNat = result) (hf : (flagByte f).toNat = flag) :
    ((s.setResultFlag x r f).goto .inc2).pc = s.pc + 2#16 ∧
    WritesVAndFlag x s ((s.setResultFlag x r f).goto .inc2) ∧
    (x ≠ regF → (((s.setResultFlag x r f).goto .inc2).v x).toNat = result) ∧
    (((s.setResultFlag x r f).goto .inc2).v regF).toNat = flag := by
  refine ⟨rfl, writesVAndFlag_setResultFlag_inc2 s x r f, fun hx => ?_, ?_⟩
  · rw [State.v_goto, State.v_setResultFlag, if_neg hx, if_pos rfl, hr]
  · rw [State.v_goto, State.v_setResultFlag, if_pos rfl, hf]

/-! The flags as numbers (41_register_alu.md R176 to R180). -/

theorem toNat_flagByte (b : Bool) : (flagByte b).toNat = b.toNat := by
  cases b <;> rfl

theorem toNat_flagByte_decide (p : Prop) [Decidable p] : (flagByte (decide p)).toNat = if p then 1 else 0 := by
  by_cases h : p
  · rw [if_pos h, decide_eq_true h, toNat_flagByte, Bool.toNat_true]
  · rw [if_neg h, decide_eq_false h, toNat_flagByte, Bool.toNat_false]

theorem toNat_flagByte_lowBitOut (a : Byte) : (flagByte (lowBitOut a)).toNat = a.toNat % 2 := by
  rw [toNat_flagByte, lowBitOut, BitVec.getLsbD, Nat.toNat_testBit, pow_zero, Nat.div_one]

theorem toNat_flagByte_highBitOut (a : Byte) : (flagByte (highBitOut a)).toNat = a.toNat / 128 := by
  have := a.isLt
  rw [toNat_flagByte, highBitOut, BitVec.getLsbD, Nat.toNat_testBit]
  omega

/-! The differences and the shifts as numbers (41_register_alu.md R177 to R180). -/

theorem toNat_byte_sub (a b : Byte) : (a - b).toNat = (a.toNat + 256 - b.toNat) % 256 := by
  have := b.isLt
  rw [BitVec.toNat_sub]
  omega

theorem toNat_byte_ushiftRight_one (a : Byte) : (a >>> 1).toNat = a.toNat / 2 := by
  rw [BitVec.toNat_ushiftRight, Nat.shiftRight_one]

theorem toNat_byte_shiftLeft_one (a : Byte) : (a <<< 1).toNat = a.toNat * 2 % 256 := by
  rw [BitVec.toNat_shiftLeft, Nat.shiftLeft_eq]

/-- The shifted register is the one SHIFT_SRC names (41_register_alu.md R178, D14). -/
theorem shiftOperand_eq {s : State} {x y : Reg} {src : Byte} (hx : Config.shiftSrc = .vx → src = s.v x)
    (hy : Config.shiftSrc = .vy → src = s.v y) : shiftOperand s x y = src := by
  unfold shiftOperand
  cases h : Config.shiftSrc with
  | vx => exact (hx h).symm
  | vy => exact (hy h).symm

end Sys2Proof.Machine
end

section
/-! The obligations of 41_register_alu.md: the loads, the sums and differences, the bitwise operations, the shifts and
RND. -/

namespace Sys2Proof.Proofs

open Machine

/-- Settles O26: each load is one register write. -/
theorem registerLoads : Obligations.RegisterLoads :=
  fun x y nn s => ⟨Laws.TablePattern.ldImm x nn, Laws.TablePattern.ldReg x y,
    ⟨_, rfl, State.v_setV_self s x _, rfl, writesV_setV_inc2 s x _⟩,
    ⟨_, rfl, State.v_setV_self s x _, rfl, writesV_setV_inc2 s x _⟩⟩

/-- Settles O27: the one register written is Vx, VF included only as x = 15, and addition of bytes is modulo 256. -/
theorem addImmediateWraps : Obligations.AddImmediateWraps := by
  intro x nn s
  refine ⟨Laws.TablePattern.addImm x nn, _, rfl, ?_, rfl, writesV_setV_inc2 s x _⟩
  rw [State.v_goto, State.v_setV_self, BitVec.toNat_add]

/-- Settles O28: each operation is one register write, of the operation bit by bit. -/
theorem bitwiseOperations : Obligations.BitwiseOperations := by
  intro x y s
  refine ⟨Laws.TablePattern.or x y, Laws.TablePattern.and x y, Laws.TablePattern.xor x y,
    ⟨_, rfl, rfl, writesV_setV_inc2 s x _, fun k => ?_⟩, ⟨_, rfl, rfl, writesV_setV_inc2 s x _, fun k => ?_⟩,
    ⟨_, rfl, rfl, writesV_setV_inc2 s x _, fun k => ?_⟩⟩
  · rw [State.v_goto, State.v_setV_self, BitVec.getLsbD_or]
  · rw [State.v_goto, State.v_setV_self, BitVec.getLsbD_and]
  · rw [State.v_goto, State.v_setV_self, BitVec.getLsbD_xor]

/-- Settles O29: the carry is whether the sum of the two numbers reaches 256. -/
theorem addRegisters : Obligations.AddRegisters :=
  fun x y s => ⟨Laws.TablePattern.addReg x y, _, rfl,
    setResultFlag_inc2_spec s x (BitVec.toNat_add _ _) (toNat_flagByte_decide _)⟩

/-- Settles O30: no borrow occurs when the number subtracted is at most the other. -/
theorem subtractRegisters : Obligations.SubtractRegisters :=
  fun x y s => ⟨Laws.TablePattern.sub x y, Laws.TablePattern.subn x y,
    ⟨_, rfl, setResultFlag_inc2_spec s x (toNat_byte_sub _ _) (toNat_flagByte_decide _)⟩,
    ⟨_, rfl, setResultFlag_inc2_spec s x (toNat_byte_sub _ _) (toNat_flagByte_decide _)⟩⟩

/-- Settles O31: whichever register SHIFT_SRC names is the one shifted, and the flag is its lowest or highest bit. -/
theorem shifts : Obligations.Shifts := by
  intro x y s src hx hy
  obtain rfl := shiftOperand_eq hx hy
  exact ⟨Laws.TablePattern.shr x y, Laws.TablePattern.shl x y,
    ⟨_, rfl, setResultFlag_inc2_spec s x (toNat_byte_ushiftRight_one _) (toNat_flagByte_lowBitOut _)⟩,
    ⟨_, rfl, setResultFlag_inc2_spec s x (toNat_byte_shiftLeft_one _) (toNat_flagByte_highBitOut _)⟩⟩

/-- Settles O32: one register write after the draw, and a zero mask leaves nothing of the byte. -/
theorem randomIsMasked : Obligations.RandomIsMasked := by
  intro x nn s
  have hv : ((drawRand s).2.setV x ((drawRand s).1 &&& nn)).v x = Config.rand s.draws &&& nn :=
    State.v_setV_self _ x _
  refine ⟨Laws.TablePattern.rnd x nn, _, rfl, hv, rfl, rfl, sameVBut_setV (drawRand s).2 x _, rfl, ?_⟩
  rintro rfl
  exact hv.trans BitVec.and_zero

end Sys2Proof.Proofs
end

section
/-! SUPPORT. What the memory instructions leave (42_memory_index.md R200 to R205): the values I is given, as numbers; a
store at I and a load at I, completed and faulting. -/

namespace Sys2Proof.Machine

/-! The values I is given, as numbers (42_memory_index.md R200 to R202). -/

theorem toNat_zextImm (nnn : Imm12) : (zextImm nnn).toNat = nnn.toNat :=
  BitVec.toNat_setWidth_of_le (by decide)

theorem toNat_zextV (s : State) (x : Reg) : (zextV s x).toNat = (s.v x).toNat :=
  BitVec.toNat_setWidth_of_le (by decide)

/-- The largest glyph address is 15 * 5, so the product does not wrap. -/
theorem toNat_glyphAddress (v : Byte) : (glyphAddress v).toNat = v.toNat % 16 * 5 := by
  simp only [glyphAddress, glyphStride, BitVec.toNat_ofNat, BitVec.extractLsb'_toNat, Nat.shiftRight_zero]
  omega

/-! The BCD digits as numbers (42_memory_index.md R203): each is below 10. -/

theorem map_toNat_bcdDigits (v : Byte) :
    (bcdDigits v).map BitVec.toNat = [v.toNat / 100, v.toNat / 10 % 10, v.toNat % 10] := by
  have := v.isLt
  have hundreds : v.toNat / 100 % 256 = v.toNat / 100 := by omega
  have tens : v.toNat / 10 % 10 % 256 = v.toNat / 10 % 10 := by omega
  have ones : v.toNat % 10 % 256 = v.toNat % 10 := by omega
  simp only [bcdDigits, List.map_cons, List.map_nil, BitVec.toNat_ofNat, Nat.reducePow, hundreds, tens, ones]

/-! A store at I, then pc + 2: how LD B and LD [I] both end (42_memory_index.md R203, R204). -/

/-- Read after a block write, inside the block (20_memory.md R78). -/
theorem Memory.get_setAll_inside {m : Memory} (hm : m.wf) {bytes : List Byte} {a k : Nat}
    (h : a + bytes.length ≤ memSize) (hk : k < bytes.length) : (m.setAll a bytes).get (a + k) = bytes[k] := by
  rw [Memory.get_setAll hm bytes h, dif_pos (by omega)]
  simp only [Nat.add_sub_cancel_left]

theorem settle_store_of_inside {s : State} {bytes : List Byte} (hlo : 80 ≤ s.I.toNat)
    (hhi : s.I.toNat + bytes.length ≤ 4096) :
    settle s ((storeAtI s bytes).map (fun t => t.goto .inc2)) =
      .next (({ s with mem := s.mem.setAll s.I.toNat bytes } : State).goto .inc2) := by
  rw [storeAtI_of_inside (.inr hlo) (.inr hhi), settle_map_ok]

theorem settle_store_of_outside {s : State} {bytes : List Byte} (h0 : bytes ≠ [])
    (h : s.I.toNat < 80 ∨ 4096 < s.I.toNat + bytes.length) :
    settle s ((storeAtI s bytes).map (fun t => t.goto .inc2)) =
      .next (enterFault s ⟨.memWrite, firstBadWrite s.I.toNat⟩) := by
  rw [storeAtI_of_outside h0 h, settle_map_error]
  rfl

theorem lowRegisters_ne_nil (s : State) (x : Reg) : lowRegisters s x ≠ [] :=
  List.ne_nil_of_length_pos (by simp)

/-! LD Vx,[I], completed and faulting (42_memory_index.md R205). -/

/-- The x + 1 bytes from I up. -/
def bytesAtI (s : State) (x : Reg) : List Byte :=
  (List.range (x.val + 1)).map (fun k => s.mem.get (s.I.toNat + k))

theorem exec_ldRegs_of_inside {x : Reg} {s : State} (h : s.I.toNat + x.val < 4096) :
    exec (.ldRegs x) s = .next ((s.setLowV (bytesAtI s x)).goto .inc2) := by
  rw [exec, execLdRegs, loadAtI_of_le (.inr h), settle_map_ok, bytesAtI]

theorem exec_ldRegs_of_outside {x : Reg} {s : State} (h : 4096 ≤ s.I.toNat + x.val) :
    exec (.ldRegs x) s = .next (enterFault s ⟨.memRead, max s.I.toNat 4096⟩) := by
  rw [exec, execLdRegs, loadAtI_of_gt (Nat.succ_ne_zero _) (Nat.lt_succ_of_le h), settle_map_error, memSize]

theorem length_bytesAtI (s : State) (x : Reg) : (bytesAtI s x).length = x.val + 1 := by
  rw [bytesAtI, List.length_map, List.length_range]

/-- A register the load covers holds its byte. -/
theorem v_setLowV_bytesAtI {x r : Reg} (s : State) (h : r ≤ x) :
    (s.setLowV (bytesAtI s x)).v r = s.mem.get (s.I.toNat + r.val) := by
  have hr : r.val < x.val + 1 := Nat.lt_succ_of_le h
  simp [bytesAtI, hr]

/-- Registers changed within a set, then pc + 2. Said of any new registers: with those of a block load in place, the
frame's equations would be checked by running the load. -/
theorem regFrame_withV_inc2 {s : State} {written : Reg → Prop} {V : Vector Byte 16}
    (hV : ∀ r : Reg, ¬ written r → V[r.val] = s.v r) : RegFrame written s (({ s with V := V } : State).goto .inc2) where
  v := hV
  i := rfl
  elsewhere := ⟨⟨rfl, rfl⟩, ⟨rfl, rfl⟩, ⟨rfl, rfl⟩, rfl, ⟨rfl, rfl, rfl⟩, fun _ => rfl, rfl⟩

/-- The load leaves the registers above x, and nothing but registers and pc changes. -/
theorem regFrame_setLowV_bytesAtI (s : State) (x : Reg) :
    RegFrame (fun r => r ≤ x) s ((s.setLowV (bytesAtI s x)).goto .inc2) := by
  refine regFrame_withV_inc2 fun r hr => ?_
  have habove : x < r := not_le.1 hr
  exact v_setLowV_of_length_le ((length_bytesAtI s x).trans_le habove)

end Sys2Proof.Machine
end

section
/-! The obligations of 42_memory_index.md: the writes of I, the BCD digits, the block store and the block load. -/

namespace Sys2Proof.Proofs

open Machine

/-- Settles O33: each instruction gives I one value, which is the sum modulo 2^16 in ADD I and does not wrap in the
others. -/
theorem indexWrites : Obligations.IndexWrites := by
  intro nnn x s
  refine ⟨Laws.TablePattern.ldI nnn, Laws.TablePattern.addI x, Laws.TablePattern.ldF x,
    ⟨_, rfl, toNat_zextImm nnn, rfl, rfl⟩, ⟨_, rfl, ?_, rfl, rfl⟩, ⟨_, rfl, toNat_glyphAddress _, rfl, rfl⟩⟩
  rw [State.goto_I, State.setI_I, BitVec.toNat_add, toNat_zextV]

/-- Settles O34: LD B is a store of three digits at I, by whether I, I + 1 and I + 2 can all be written. -/
theorem bcdStore : Obligations.BcdStore := by
  intro x s hm
  refine ⟨Laws.TablePattern.ldB x, fun hlo hhi => ?_, fun h => ?_⟩
  · obtain ⟨hundreds, hrest⟩ := List.cons.inj (map_toNat_bcdDigits (s.v x))
    obtain ⟨tens, hrest⟩ := List.cons.inj hrest
    obtain ⟨ones, -⟩ := List.cons.inj hrest
    have hfits : s.I.toNat + (bcdDigits (s.v x)).length ≤ memSize := hhi
    have hget : ∀ k (hk : k < 3), (s.mem.setAll s.I.toNat (bcdDigits (s.v x))).get (s.I.toNat + k) =
        (bcdDigits (s.v x))[k] := fun k hk => Memory.get_setAll_inside hm hfits hk
    refine ⟨_, settle_store_of_inside hlo hhi, ?_, ?_, ?_, fun a ha => ?_, rfl, rfl⟩
    · exact (congrArg BitVec.toNat (hget 0 (by decide))).trans hundreds
    · exact (congrArg BitVec.toNat (hget 1 (by decide))).trans tens
    · exact (congrArg BitVec.toNat (hget 2 (by decide))).trans ones
    · exact Memory.get_setAll_outside hm hfits ha
  · exact ⟨_, settle_store_of_outside (List.cons_ne_nil _ _) (h.imp_right Nat.lt_succ_of_le),
      enterFault_faultedWith s _ _⟩

/-- Settles O35: LD [I],Vx is a store of x + 1 registers at I, by whether I up to I + x can all be written. -/
theorem blockStore : Obligations.BlockStore := by
  intro x s hm
  have hlen := length_lowRegisters s x
  refine ⟨Laws.TablePattern.stRegs x, fun hlo hhi => ?_, fun h => ?_⟩
  · have hfits : s.I.toNat + (lowRegisters s x).length ≤ memSize := by rw [hlen]; exact hhi
    refine ⟨_, settle_store_of_inside hlo hfits, fun r hr => ?_, fun a ha => ?_, rfl, rfl⟩
    · have hk : r.val < (lowRegisters s x).length := by rw [hlen]; exact Nat.lt_succ_of_le hr
      exact (Memory.get_setAll_inside hm hfits hk).trans (getElem_lowRegisters s x r hk)
    · exact Memory.get_setAll_outside hm hfits (by omega)
  · exact ⟨_, settle_store_of_outside (lowRegisters_ne_nil s x) (by omega), enterFault_faultedWith s _ _⟩

/-- Settles O36, by whether I up to I + x lie in memory. -/
theorem blockLoad : Obligations.BlockLoad := by
  intro x s
  refine ⟨Laws.TablePattern.ldRegs x, fun h => ?_, fun h => ?_⟩
  · refine ⟨_, exec_ldRegs_of_inside h, fun r hr => ?_, ?_, regFrame_setLowV_bytesAtI s x⟩
    · rw [State.v_goto, v_setLowV_bytesAtI s hr]
    · rw [State.goto_pc, nextPc, State.setLowV_pc]
  · exact ⟨_, exec_ldRegs_of_outside h, enterFault_faultedWith s _ _⟩

/-- Settles O37: the load reads at I + r the byte the store left there, and the store keeps I. -/
theorem blockRoundTrip : Obligations.BlockRoundTrip := by
  intro x s hm hlo hhi
  obtain ⟨-, hstore, -⟩ := blockStore x s hm
  obtain ⟨t, ht, hbytes, -, -, hframe⟩ := hstore hlo (Nat.lt_succ_of_le hhi)
  refine ⟨t, ht, fun u hmem hI => ?_⟩
  have hkeep : u.I = s.I := by rw [hI, hframe]
  obtain ⟨-, hload, -⟩ := blockLoad x u
  obtain ⟨v, hv, hregs, -, -⟩ := hload (by rw [hkeep]; exact Nat.lt_succ_of_le hhi)
  exact ⟨v, hv, fun r hr => by rw [hregs r hr, hmem, hkeep, hbytes r hr]⟩

end Sys2Proof.Proofs
end

section
/-! SUPPORT. What DRW does to the framebuffer (43_draw.md R230 to R234): the cells of a sprite, each named once; what a
list of toggles leaves, and whether one of them turned a cell off; DRW completed and faulting. -/

namespace Sys2Proof.Machine

/-! The cells of a sprite (43_draw.md R230 to R232). -/

/-- Within 32 rows and 8 columns of one corner, no two bits land on one cell, however the picture wraps. -/
theorem pixelIndex_inj {wrap : DrawWrap} {px py r r' c c' : Nat} (hr : r < 32) (hr' : r' < 32) (hc : c < 8)
    (hc' : c' < 8) (h : pixelIndex wrap (px + c) (py + r) = pixelIndex wrap (px + c') (py + r')) :
    r = r' ∧ c = c' := by
  cases wrap <;> simp only [pixelIndex] at h <;> omega

theorem mem_rowCells {wrap : DrawWrap} {px py k : Nat} {b : Byte} :
    k ∈ rowCells wrap px py b ↔ ∃ c, c < 8 ∧ b.getLsbD (7 - c) = true ∧ pixelIndex wrap (px + c) py = k := by
  simp only [rowCells, List.mem_map, List.mem_filter, List.mem_range, and_assoc]

theorem mem_spriteCells {wrap : DrawWrap} {px py k : Nat} {rows : List Byte} :
    k ∈ spriteCells wrap px py rows ↔ ∃ r b c, rows[r]? = some b ∧ c < 8 ∧ b.getLsbD (7 - c) = true ∧
      pixelIndex wrap (px + c) (py + r) = k := by
  induction rows generalizing py with
  | nil => simp [spriteCells]
  | cons b bs ih =>
    rw [spriteCells, List.mem_append, mem_rowCells, ih]
    constructor
    · rintro (⟨c, hc, hbit, hk⟩ | ⟨r, b', c, hrow, hc, hbit, hk⟩)
      · exact ⟨0, b, c, rfl, hc, hbit, hk⟩
      · exact ⟨r + 1, b', c, hrow, hc, hbit, by rw [← hk, Nat.add_assoc, Nat.add_comm 1]⟩
    · rintro ⟨_ | r, b', c, hrow, hc, hbit, hk⟩
      · obtain rfl := Option.some.inj hrow
        exact .inl ⟨c, hc, hbit, hk⟩
      · exact .inr ⟨r, b', c, hrow, hc, hbit, by rw [← hk, Nat.add_assoc, Nat.add_comm 1]⟩

theorem lt_of_mem_spriteCells {wrap : DrawWrap} {px py k : Nat} {rows : List Byte}
    (h : k ∈ spriteCells wrap px py rows) : k < 2048 := by
  obtain ⟨r, -, c, -, -, -, rfl⟩ := mem_spriteCells.1 h
  exact pixelIndex_lt wrap _ _

theorem nodup_rowCells (wrap : DrawWrap) (px py : Nat) (b : Byte) : (rowCells wrap px py b).Nodup := by
  refine List.Nodup.map_on (fun c hc c' hc' h => ?_) (List.nodup_range.filter _)
  have hlt := List.mem_range.1 (List.mem_of_mem_filter hc)
  have hlt' := List.mem_range.1 (List.mem_of_mem_filter hc')
  exact (pixelIndex_inj (r := 0) (r' := 0) (by decide) (by decide) hlt hlt' h).2

/-- A sprite names no cell twice: each row by itself does not, and the rows below it land elsewhere. -/
theorem nodup_spriteCells (wrap : DrawWrap) (px py : Nat) {rows : List Byte} (h : rows.length ≤ 32) :
    (spriteCells wrap px py rows).Nodup := by
  induction rows generalizing py with
  | nil => exact List.nodup_nil
  | cons b bs ih =>
    rw [List.length_cons] at h
    refine List.Nodup.append (nodup_rowCells wrap px py b) (ih (py + 1) (by omega)) fun k hhead hrest => ?_
    obtain ⟨c, hc, -, rfl⟩ := mem_rowCells.1 hhead
    obtain ⟨r, b', c', hrow, hc', -, hk⟩ := mem_spriteCells.1 hrest
    obtain ⟨hr, -⟩ := List.getElem?_eq_some_iff.1 hrow
    rw [Nat.add_assoc] at hk
    obtain ⟨hzero, -⟩ := pixelIndex_inj (r := 1 + r) (r' := 0) (by omega) (by decide) hc' hc hk
    omega

/-! A list of toggles, no cell twice (43_draw.md R234). -/

/-- The cells listed are toggled and the others kept. -/
theorem cell_xorCells {fb : Framebuffer} {cells : List Nat} (hn : cells.Nodup) (hlt : ∀ k ∈ cells, k < 2048)
    (j : Nat) : (xorCells fb cells).1.cell j = if j ∈ cells then !fb.cell j else fb.cell j := by
  induction cells generalizing fb with
  | nil => simp [xorCells]
  | cons k ks ih =>
    obtain ⟨hk, hks⟩ := List.nodup_cons.1 hn
    obtain ⟨hklt, hkslt⟩ := List.forall_mem_cons.1 hlt
    rw [xorCells, ih hks hkslt, Framebuffer.cell_toggle fb k j hklt]
    by_cases hj : j = k
    · subst hj
      simp [hk]
    · simp [hj]

/-- The collision is whether a cell listed was 1 before the first toggle: its own toggle is the only one it meets. -/
theorem xorCells_collision_iff {fb : Framebuffer} {cells : List Nat} (hn : cells.Nodup)
    (hlt : ∀ k ∈ cells, k < 2048) : (xorCells fb cells).2 = true ↔ ∃ k ∈ cells, fb.cell k = true := by
  induction cells generalizing fb with
  | nil => simp [xorCells]
  | cons k ks ih =>
    obtain ⟨hk, hks⟩ := List.nodup_cons.1 hn
    obtain ⟨hklt, hkslt⟩ := List.forall_mem_cons.1 hlt
    have hkeep : ∀ j ∈ ks, (fb.toggle k).cell j = fb.cell j := fun j hj =>
      (Framebuffer.cell_toggle fb k j hklt).trans (if_neg (ne_of_mem_of_not_mem hj hk))
    rw [xorCells, Bool.or_eq_true, ih hks hkslt, List.exists_mem_cons_iff]
    exact or_congr_right (exists_congr fun j => and_congr_right fun hj => by rw [hkeep j hj])

/-! DRW, completed and faulting (43_draw.md R232). -/

/-- The n sprite rows from I up. -/
def spriteRows (s : State) (n : Nibble) : List Byte :=
  (List.range n.toNat).map (fun r => s.mem.get (s.I.toNat + r))

/-- The cells DRW toggles, on this hardware's DRAW_WRAP. -/
abbrev hitCells (s : State) (x y : Reg) (n : Nibble) : List Nat :=
  drawCells s x y (spriteRows s n)

theorem exec_drw_of_inside {x y : Reg} {n : Nibble} {s : State} (h : n = 0#4 ∨ s.I.toNat + n.toNat ≤ 4096) :
    exec (.drw x y n) s = .next ((drawSprite s x y (spriteRows s n)).goto .inc2) := by
  rw [exec, execDrw, loadAtI_of_le (h.imp_left (congrArg BitVec.toNat)), settle_map_ok, spriteRows]

theorem exec_drw_of_outside {x y : Reg} {n : Nibble} {s : State} (h0 : n ≠ 0#4) (h : 4096 < s.I.toNat + n.toNat) :
    exec (.drw x y n) s = .next (enterFault s ⟨.memRead, max s.I.toNat 4096⟩) := by
  rw [exec, execDrw, loadAtI_of_gt (fun hn => h0 (BitVec.eq_of_toNat_eq hn)) h, settle_map_error, memSize]

theorem mem_hitCells {s : State} {x y : Reg} {n : Nibble} {k : Nat} :
    k ∈ hitCells s x y n ↔ SpriteHits s x y n k := by
  have hrow : ∀ r b, (spriteRows s n)[r]? = some b ↔ r < n.toNat ∧ s.mem.get (s.I.toNat + r) = b := by
    intro r b
    simp [spriteRows, List.getElem?_eq_some_iff]
  simp only [hitCells, drawCells, mem_spriteCells, SpriteHits, hrow]
  constructor
  · rintro ⟨r, _, c, ⟨hr, rfl⟩, hc, hbit, hk⟩
    exact ⟨r, c, hr, hc, hbit, hk⟩
  · rintro ⟨r, c, hr, hc, hbit, hk⟩
    exact ⟨r, _, c, ⟨hr, rfl⟩, hc, hbit, hk⟩

theorem nodup_hitCells (s : State) (x y : Reg) (n : Nibble) : (hitCells s x y n).Nodup := by
  have := n.isLt
  refine nodup_spriteCells drawWrap _ _ ?_
  rw [spriteRows, List.length_map, List.length_range]
  omega

/-- What a draw leaves in each cell. -/
theorem drawSprite_cell (s : State) (x y : Reg) (n : Nibble) (k : Nat) :
    (SpriteHits s x y n k → (drawSprite s x y (spriteRows s n)).FB.cell k = !s.FB.cell k) ∧
    (¬ SpriteHits s x y n k → (drawSprite s x y (spriteRows s n)).FB.cell k = s.FB.cell k) := by
  have hcell := cell_xorCells (fb := s.FB) (nodup_hitCells s x y n) (fun _ => lt_of_mem_spriteCells) k
  exact ⟨fun h => hcell.trans (if_pos (mem_hitCells.2 h)), fun h => hcell.trans (if_neg (mt mem_hitCells.1 h))⟩

/-- What a draw leaves in VF. -/
theorem drawSprite_flag (s : State) (x y : Reg) (n : Nibble) :
    ((∃ k, SpriteHits s x y n k ∧ s.FB.cell k = true) → (drawSprite s x y (spriteRows s n)).v regF = 1#8) ∧
    ((¬ ∃ k, SpriteHits s x y n k ∧ s.FB.cell k = true) → (drawSprite s x y (spriteRows s n)).v regF = 0#8) := by
  have hflag : (drawSprite s x y (spriteRows s n)).v regF = flagByte (xorCells s.FB (hitCells s x y n)).2 :=
    State.v_setV_self _ regF _
  have hiff := xorCells_collision_iff (fb := s.FB) (nodup_hitCells s x y n) (fun _ => lt_of_mem_spriteCells)
  simp only [mem_hitCells] at hiff
  refine ⟨fun h => ?_, fun h => ?_⟩
  · rw [hflag, hiff.2 h]; rfl
  · rw [hflag, Bool.eq_false_iff.2 (mt hiff.1 h)]; rfl

/-- The sprite is read from memory at I, and its corner from Vx and Vy. -/
theorem spriteHits_congr {s u : State} {x y : Reg} (hmem : u.mem = s.mem) (hI : u.I = s.I) (hx : u.v x = s.v x)
    (hy : u.v y = s.v y) (n : Nibble) (k : Nat) : SpriteHits u x y n k ↔ SpriteHits s x y n k := by
  simp only [SpriteHits, hmem, hI, hx, hy]

theorem lt_of_spriteHits {s : State} {x y : Reg} {n : Nibble} {k : Nat} (h : SpriteHits s x y n k) : k < 2048 :=
  lt_of_mem_spriteCells (mem_hitCells.2 h)

end Sys2Proof.Machine
end

section
/-! The obligations of 43_draw.md: DRW, the cells of a sprite, and the second of two equal draws. -/

namespace Sys2Proof.Proofs

open Machine

/-- Settles O41: the cells lie within 32 rows and 8 columns of the sprite's corner, where no two bits land on one. -/
theorem noCellToggledTwice : Obligations.NoCellToggledTwice :=
  fun wrap px py _ h => nodup_spriteCells wrap px py (h.trans (by decide))

/-- Settles O40, by whether the sprite's rows lie in memory. -/
theorem drawTogglesSpriteCells : Obligations.DrawTogglesSpriteCells := by
  intro x y n s
  refine ⟨Laws.TablePattern.drw x y n, fun h => ?_, fun h0 h => ?_⟩
  · obtain ⟨hone, hzero⟩ := drawSprite_flag s x y n
    exact ⟨_, exec_drw_of_inside h, fun k _ => drawSprite_cell s x y n k, hone, hzero,
      sameVBut_setV _ regF _, rfl, rfl, rfl⟩
  · exact ⟨_, exec_drw_of_outside h0 h, enterFault_faultedWith s _ _⟩

/-- Settles O42: both draws toggle the same cells, so a cell hit is toggled back, and one that was 0 before the first
draw is 1 before the second. -/
theorem drawIsItsOwnInverse : Obligations.DrawIsItsOwnInverse := by
  intro x y n s h
  obtain ⟨-, hdraw, -⟩ := drawTogglesSpriteCells x y n s
  obtain ⟨t, ht, hcell, -, -, -, -, -, hframe⟩ := hdraw h
  refine ⟨t, ht, fun u hFB hmem hI hx hy => ?_⟩
  have hIs : u.I = s.I := by rw [hI, hframe]
  have hmems : u.mem = s.mem := by rw [hmem, hframe]
  have hhits := spriteHits_congr hmems hIs hx hy n
  obtain ⟨-, hredraw, -⟩ := drawTogglesSpriteCells x y n u
  obtain ⟨w, hw, hcell', hflag, -⟩ := hredraw (by rwa [hIs])
  refine ⟨w, hw, Framebuffer.ext_cells fun k hk => ?_, fun ⟨k, hit, hoff⟩ => hflag ⟨k, (hhits k).2 hit, ?_⟩⟩
  · obtain ⟨htoggled, hkept⟩ := hcell k hk
    obtain ⟨htoggled', hkept'⟩ := hcell' k hk
    by_cases hit : SpriteHits s x y n k
    · rw [htoggled' ((hhits k).2 hit), hFB, htoggled hit, Bool.not_not]
    · rw [hkept' (mt (hhits k).1 hit), hFB, hkept hit]
  · obtain ⟨htoggled, -⟩ := hcell k (lt_of_spriteHits hit)
    rw [hFB, htoggled hit, hoff, Bool.not_false]

end Sys2Proof.Proofs
end

section
/-! SUPPORT. What the input instructions do (44_input_timer.md R249 to R256), and what the ticks of the steps leave
(R260 to R262). -/

namespace Sys2Proof.Machine

/-! SKP and SKNP, completed and faulting (44_input_timer.md R249 to R251). -/

theorem exec_skp_of_lt {x : Reg} {s : State} (h : (s.v x).toNat < 16) :
    exec (.skp x) s = .next (s.skipIf s.key[(s.v x).toNat]) := by
  rw [exec, execSkp, keyAt_of_lt h, settle_map_ok]

theorem exec_sknp_of_lt {x : Reg} {s : State} (h : (s.v x).toNat < 16) :
    exec (.sknp x) s = .next (s.skipIf (!s.key[(s.v x).toNat])) := by
  rw [exec, execSknp, keyAt_of_lt h, settle_map_ok]

theorem exec_skp_of_ge {x : Reg} {s : State} (h : 16 ≤ (s.v x).toNat) :
    exec (.skp x) s = .next (enterFault s ⟨.keyIndex, (s.v x).toNat⟩) := by
  rw [exec, execSkp, keyAt_of_ge h, settle_map_error]

theorem exec_sknp_of_ge {x : Reg} {s : State} (h : 16 ≤ (s.v x).toNat) :
    exec (.sknp x) s = .next (enterFault s ⟨.keyIndex, (s.v x).toNat⟩) := by
  rw [exec, execSknp, keyAt_of_ge h, settle_map_error]

/-! LD Vx, K with a key held and with none (44_input_timer.md R253). -/

/-- A held key below which none is held is the one found (D22). -/
theorem lowestKey_eq_some {s : State} {k : Reg} (hk : s.key[k.val] = true)
    (hlow : ∀ j : Reg, j < k → s.key[j.val] = false) : lowestKey s = some k := by
  cases h : lowestKey s with
  | none => exact absurd hk (by simp [lowestKey_none.1 h k])
  | some j =>
    obtain ⟨hj, hjlow⟩ := lowestKey_some h
    rcases lt_trichotomy j k with hlt | rfl | hlt
    · exact absurd hj (by simp [hlow j hlt])
    · rfl
    · exact absurd hk (by simp [hjlow k hlt])

theorem exec_ldK_of_held {x k : Reg} {s : State} (h : lowestKey s = some k) :
    exec (.ldK x) s = .next ((s.setV x (BitVec.ofNat 8 k.val)).goto .inc2) := by
  rw [exec, execLdK, h]

/-- Holding pc is no change at all. -/
theorem exec_ldK_of_none {x : Reg} {s : State} (h : lowestKey s = none) : exec (.ldK x) s = .next s := by
  rw [exec, execLdK, h]
  rfl

/-- The index of a key fits in a register. -/
theorem toNat_ofNat_reg (k : Reg) : (BitVec.ofNat 8 k.val).toNat = k.val := by
  rw [BitVec.toNat_ofNat]
  omega

/-! The tick of a step that runs an instruction (44_input_timer.md R260, R261). -/

/-- A step that runs an instruction and does not end faulted is the completed instruction, then one tick. -/
theorem step_completed_then_tick {s t : State} {i : Instr} (hpc : s.pc.toNat ≤ 0xFFE)
    (hd : decode (wordOfBytes (s.mem.get s.pc.toNat) (s.mem.get (s.pc.toNat + 1))) = .ok i)
    (h : step s = .next t) (hf : t.faulted = false) :
    ∃ u, exec i s = .next u ∧ Completed s i u ∧ t = tick u := by
  obtain ⟨hsf, hl, -⟩ := step_cases h
  obtain ⟨u, hu, -⟩ := exec_endsWell i s
  have hstep : step s = .next (endStep u) := by
    rw [step_of_decoded ⟨hl, hsf⟩ (fetchWord_of_le hpc) hd, hu, finishStep]
  obtain rfl := Host.Outcome.next.inj (hstep.symm.trans h)
  rw [endStep_faulted] at hf
  exact ⟨u, hu, completed_of_exec hu hf, endStep_of_not_faulted hf⟩

/-! Any number of ticks (44_input_timer.md R262). -/

theorem toNat_iterate_decay (k : Nat) (b : Byte) : (decay^[k] b).toNat = b.toNat - k := by
  induction k generalizing b with
  | zero => rfl
  | succ k ih => rw [Function.iterate_succ_apply, ih, decay_toNat, Nat.sub_sub, Nat.add_comm]

theorem iterate_tick_DT (k : Nat) (s : State) : (tick^[k] s).DT = decay^[k] s.DT :=
  Function.Semiconj.iterate_right (f := State.DT) tick_DT k s

theorem iterate_tick_ST (k : Nat) (s : State) : (tick^[k] s).ST = decay^[k] s.ST :=
  Function.Semiconj.iterate_right (f := State.ST) tick_ST k s

/-- Ticks change nothing but the timers. -/
theorem iterate_tick_frame (k : Nat) (s : State) :
    tick^[k] s = { s with DT := (tick^[k] s).DT, ST := (tick^[k] s).ST } := by
  induction k generalizing s with
  | zero => rfl
  | succ k ih => exact ih (tick s)

/-! A parked core (70_reset_and_hazards.md R324): its word is a jump to itself, so a step is a tick and nothing else. -/

theorem goto_abs_of_eq_pc {s : State} {nnn : Imm12} (h : nnn.toNat = s.pc.toNat) : s.goto (.abs nnn) = s := by
  have hpc : (s.goto (.abs nnn)).pc = s.pc := BitVec.eq_of_toNat_eq ((toNat_pc_goto_abs s nnn).trans h)
  calc s.goto (.abs nnn) = { s with pc := (s.goto (.abs nnn)).pc } := rfl
    _ = s := by rw [hpc]

theorem step_of_parked {s : State} (h : Parked s) : step s = .next (tick s) := by
  obtain ⟨hlive, hpc, nnn, hself, hword⟩ := h
  have hd : decode (encode (.jp nnn)) = .ok (.jp nnn) := decode_ok_iff.2 (decodeOp_encode rfl)
  rw [← hword] at hd
  have hexec : exec (.jp nnn) s = .next s := congrArg Host.Outcome.next (goto_abs_of_eq_pc hself)
  rw [step_of_decoded hlive (fetchWord_of_le hpc) hd, hexec, finishStep, endStep_of_not_faulted hlive.2]

theorem parked_tick {s : State} (h : Parked s) : Parked (tick s) :=
  ⟨h.live, h.pc_le, h.word⟩

theorem runOps_steps_of_parked (k : Nat) {s : State} (h : Parked s) :
    runOps (List.replicate k .step) s = tick^[k] s := by
  induction k generalizing s with
  | zero => rfl
  | succ k ih =>
    have hop : (hostOp .step s).2 = tick s := congrArg Prod.snd (stepOp_of_next (step_of_parked h))
    rw [List.replicate_succ, runOps, hop, ih (parked_tick h), Function.iterate_succ_apply]

end Sys2Proof.Machine
end

section
/-! The obligations of 44_input_timer.md: the tick of a step, the timers of a parked core, the key instructions and the
timer instructions. -/

namespace Sys2Proof.Proofs

open Machine

/-- Settles O46: the step is the completed instruction and then one tick, and only LD DT and LD ST write a timer. -/
theorem oneTickPerCompletedStep : Obligations.OneTickPerCompletedStep := by
  intro s t i hpc hd h hf
  obtain ⟨u, hu, hc, rfl⟩ := step_completed_then_tick hpc hd h hf
  rw [tick_DT, tick_ST, decay_toNat, decay_toNat]
  refine ⟨fun hi => ?_, fun hi => ?_, ?_, ?_, ?_⟩
  · rw [hc.DT.resolve_right fun ⟨x, hx⟩ => hi x hx]
  · rw [hc.ST.resolve_right fun ⟨x, hx⟩ => hi x hx]
  · rintro x rfl
    obtain rfl := Host.Outcome.next.inj hu
    rfl
  · rintro x rfl
    obtain rfl := Host.Outcome.next.inj hu
    rfl
  · rintro x rfl
    obtain rfl := Host.Outcome.next.inj hu
    exact State.v_setV_self s x s.DT

/-- Settles O53: k steps of a parked core are k ticks, by induction on k. -/
theorem parkedTimersRunOut : Obligations.ParkedTimersRunOut := by
  intro k s h
  rw [runOps_steps_of_parked k h]
  refine ⟨?_, ?_, iterate_tick_frame k s⟩
  · rw [iterate_tick_DT, toNat_iterate_decay]
  · rw [iterate_tick_ST, toNat_iterate_decay]

/-- Settles O43, by whether V[x] is the index of a key. -/
theorem keySkips : Obligations.KeySkips := by
  intro x s
  refine ⟨Laws.TablePattern.skp x, Laws.TablePattern.sknp x, fun h => ⟨?_, ?_⟩, fun h => ⟨?_, ?_⟩⟩
  · exact ⟨_, exec_skp_of_lt h, pcOnly_skipIf_and_pc s Iff.rfl⟩
  · exact ⟨_, exec_sknp_of_lt h, pcOnly_skipIf_and_pc s (by rw [Bool.not_eq_true'])⟩
  · exact ⟨_, exec_skp_of_ge h, enterFault_faultedWith s _ _⟩
  · exact ⟨_, exec_sknp_of_ge h, enterFault_faultedWith s _ _⟩

/-- Settles O44, by whether a key is held. -/
theorem waitForKey : Obligations.WaitForKey := by
  intro x s
  refine ⟨Laws.TablePattern.ldK x, fun k hk hlow => ?_, fun hnone => exec_ldK_of_none (lowestKey_none.2 hnone)⟩
  refine ⟨_, exec_ldK_of_held (lowestKey_eq_some hk hlow), ?_, rfl, writesV_setV_inc2 s x _⟩
  rw [State.v_goto, State.v_setV_self, toNat_ofNat_reg]

/-- Settles O45: each moves one value and takes the next-pc source pc + 2. -/
theorem timerAccess : Obligations.TimerAccess :=
  fun x s => ⟨Laws.TablePattern.ldVxDt x, Laws.TablePattern.ldDt x, Laws.TablePattern.ldSt x,
    ⟨_, rfl, State.v_setV_self s x s.DT, rfl, writesV_setV_inc2 s x s.DT⟩,
    ⟨_, rfl, rfl, rfl, rfl⟩, ⟨_, rfl, rfl, rfl, rfl⟩⟩

/-- Settles O47: a tick is one saturating decrement of each timer, and under EXTERNAL the end of a step
leaves the state alone, faulted or not. -/
theorem tickSaturates : Obligations.TickSaturates :=
  fun s => ⟨decay_toNat s.DT, decay_toNat s.ST, rfl, rfl, rfl, ite_self s⟩

end Sys2Proof.Proofs
end

section
/-! SUPPORT. How a fault comes about and what it leaves (60_exceptions.md R286 to R290): a step that ends faulted is a
fault entry from the state it began in, no host operation clears it, and R287's space for each instruction. -/

namespace Sys2Proof.Machine

/-! A step that ends faulted (60_exceptions.md R286, R289). -/

/-- The fault entry is the end of its step: no tick follows (10_state.md R50). -/
theorem endStep_of_faulted {s : State} (h : s.faulted = true) : endStep s = s := by
  rw [endStep_eq, if_pos h]

theorem stepReport_of_faulted {s t : State} (h : t.faulted = true) :
    stepReport s t = .faultOutOfBounds t.faultRecord := if_pos h

/-- An instruction that newly ends faulted has taken the fault entry. -/
theorem eq_enterFault_of_exec {i : Instr} {s t : State} (h : exec i s = .next t) (hs : s.faulted = false)
    (ht : t.faulted = true) : ∃ r, t = enterFault s r := by
  refine (exec_cases h).resolve_left fun hc => ?_
  exact nomatch ht.symm.trans (hc.faulted.trans hs)

/-- A step that ends faulted has taken the fault entry, at the fetch or at its instruction. -/
theorem eq_enterFault_of_step {s t : State} (h : step s = .next t) (ht : t.faulted = true) :
    ∃ r, t = enterFault s r := by
  obtain ⟨hs, -, ⟨r, -, rfl⟩ | ⟨w, -, ⟨e, -, rfl⟩ | ⟨i, u, -, hu, rfl⟩⟩⟩ := step_cases h
  · exact ⟨r, rfl⟩
  · rw [endStep_faulted] at ht
    exact nomatch ht.symm.trans hs
  · rw [endStep_faulted] at ht
    rw [endStep_of_faulted ht]
    exact eq_enterFault_of_exec hu hs ht

/-- A step that ends faulted, on a word that decodes, is its instruction's own next state. -/
theorem eq_of_step_faulted_of_exec {s t u : State} {i : Instr} (h : step s = .next t) (ht : t.faulted = true)
    (hpc : s.pc.toNat ≤ 0xFFE)
    (hd : decode (wordOfBytes (s.mem.get s.pc.toNat) (s.mem.get (s.pc.toNat + 1))) = .ok i)
    (hu : exec i s = .next u) : t = u := by
  obtain ⟨hs, hl, -⟩ := step_cases h
  have hstep : step s = .next (endStep u) := by
    rw [step_of_decoded ⟨hl, hs⟩ (fetchWord_of_le hpc) hd, hu, finishStep]
  obtain rfl := Host.Outcome.next.inj (hstep.symm.trans h)
  rw [endStep_faulted] at ht
  exact endStep_of_faulted ht

/-! No return from a fault (60_exceptions.md R290). -/

/-- A host operation on a faulted core leaves it faulted, with its record: a step is refused, and no other operation
writes the engine's fault status. -/
theorem hostOp_keeps_fault (op : HostOp) {s : State} (h : s.faulted = true) :
    (hostOp op s).2.faulted = true ∧ (hostOp op s).2.faultRecord = s.faultRecord := by
  cases op with
  | load bytes =>
    simp only [hostOp]
    rcases load_cases bytes s with hload | ⟨-, hload⟩
    · rw [hload]; exact ⟨h, rfl⟩
    · rw [hload]; exact ⟨h, rfl⟩
  | step =>
    have hsame : (hostOp .step s).2 = s := congrArg Prod.snd (stepOp_of_refused (step_of_faulted h))
    rw [hsame]
    exact ⟨h, rfl⟩
  | pollFramebuffer =>
    simp only [hostOp, pollFramebuffer_state]
    exact ⟨h, rfl⟩
  | setKey index pressed =>
    simp only [hostOp]
    rw [setKey_state]
    exact ⟨h, rfl⟩
  | soundActive => exact ⟨h, rfl⟩
  | tick => exact ⟨h, rfl⟩

theorem runOps_keeps_fault (ops : List HostOp) {s : State} (h : s.faulted = true) :
    (runOps ops s).faulted = true ∧ (runOps ops s).faultRecord = s.faultRecord := by
  induction ops generalizing s with
  | nil => exact ⟨h, rfl⟩
  | cons op rest ih =>
    obtain ⟨hop, hrecord⟩ := hostOp_keeps_fault op h
    obtain ⟨hrest, hrecord'⟩ := ih hop
    exact ⟨hrest, hrecord'.trans hrecord⟩

/-! Which instruction raises what (60_exceptions.md R287). -/

/-- An outcome from s is a next state that is faulted only if s was, or the fault entry for the space given. -/
def RaisesOnly (s : State) (space : Option FaultSpace) (o : Host.Outcome State Fault Refusal) : Prop :=
  ∃ t, o = .next t ∧ (t.faulted = s.faulted ∨ ∃ r, t = enterFault s r ∧ space = some r.space)

theorem RaisesOnly.completes {s t : State} {space : Option FaultSpace} {o : Host.Outcome State Fault Refusal}
    (ho : o = .next t) (ht : t.faulted = s.faulted) : RaisesOnly s space o :=
  ⟨t, ho, .inl ht⟩

theorem RaisesOnly.raises {s : State} {r : Raise} {o : Host.Outcome State Fault Refusal}
    (ho : o = .next (enterFault s r)) : RaisesOnly s (some r.space) o :=
  ⟨_, ho, .inr ⟨r, rfl, rfl⟩⟩

/-- Both stores: the only raise is MEM_WRITE, in the glyphs or past the end of memory (20_memory.md R73). -/
theorem raisesOnly_settle_store (s : State) {bytes : List Byte} (h0 : bytes ≠ []) :
    RaisesOnly s (some .memWrite) (settle s ((storeAtI s bytes).map (fun t => t.goto .inc2))) := by
  by_cases hout : s.I.toNat < 80 ∨ 4096 < s.I.toNat + bytes.length
  · exact .raises (settle_store_of_outside h0 hout)
  · exact .completes (settle_store_of_inside (by omega) (by omega)) rfl

/-- The eight raise their one space outside their range and complete inside it; the 27 others complete. -/
theorem exec_raisesOnly (i : Instr) (s : State) : RaisesOnly s (raisedSpace i) (exec i s) := by
  cases i with
  | call nnn =>
    rcases Nat.lt_or_ge s.sp.val 16 with h | h
    · exact .completes (exec_call_of_lt h) rfl
    · exact .raises (exec_call_of_full (by omega))
  | ret =>
    by_cases h : s.sp.val = 0
    · exact .raises (exec_ret_of_empty h)
    · exact .completes (exec_ret_of_pos h) rfl
  | drw x y n =>
    by_cases h : n = 0#4 ∨ s.I.toNat + n.toNat ≤ 4096
    · exact .completes (exec_drw_of_inside h) rfl
    · exact .raises (exec_drw_of_outside (fun h0 => h (.inl h0)) (by omega))
  | ldRegs x =>
    rcases Nat.lt_or_ge (s.I.toNat + x.val) 4096 with h | h
    · exact .completes (exec_ldRegs_of_inside h) rfl
    · exact .raises (exec_ldRegs_of_outside h)
  | ldB x => exact raisesOnly_settle_store s (List.cons_ne_nil _ _)
  | stRegs x => exact raisesOnly_settle_store s (lowRegisters_ne_nil s x)
  | skp x =>
    rcases Nat.lt_or_ge (s.v x).toNat 16 with h | h
    · exact .completes (exec_skp_of_lt h) rfl
    · exact .raises (exec_skp_of_ge h)
  | sknp x =>
    rcases Nat.lt_or_ge (s.v x).toNat 16 with h | h
    · exact .completes (exec_sknp_of_lt h) rfl
    · exact .raises (exec_sknp_of_ge h)
  | ldK x =>
    cases h : lowestKey s with
    | some k => exact .completes (exec_ldK_of_held h) rfl
    | none => exact .completes (exec_ldK_of_none h) rfl
  | _ => exact .completes rfl rfl

end Sys2Proof.Machine
end

section
/-! The obligations of 60_exceptions.md: the fault entry, that it is final, and which instruction raises what. -/

namespace Sys2Proof.Proofs

open Machine

/-- Settles O10: a step that ends faulted is a fault entry, which keeps the pc it began at and does not tick. -/
theorem faultEntry : Obligations.FaultEntry := by
  intro s t h ht
  refine ⟨?_, ?_, fun i u hpc hd hu => eq_of_step_faulted_of_exec h ht hpc hd hu⟩
  · rw [stepOp_of_next h, stepReport_of_faulted ht]
  · obtain ⟨r, rfl⟩ := eq_enterFault_of_step h ht
    rfl

/-- Settles O11: every host operation keeps the fault and its record, and a step of a faulted core is refused. -/
theorem faultIsSticky : Obligations.FaultIsSticky := by
  intro ops s h
  obtain ⟨hfaulted, hrecord⟩ := runOps_keeps_fault ops h
  exact ⟨hfaulted, hrecord, step_of_faulted hfaulted⟩

/-- Settles O12, instruction by instruction: completed as unfaulted as it began, or the fault entry for its space. -/
theorem whichInstructionRaisesWhat : Obligations.WhichInstructionRaisesWhat := by
  intro i s
  obtain ⟨t, ht, hkept | ⟨r, rfl, hspace⟩⟩ := exec_raisesOnly i s
  · refine ⟨t, ht, fun hs hfaulted => ?_⟩
    exact nomatch hfaulted.symm.trans (hkept.trans hs)
  · exact ⟨_, ht, fun _ _ => ⟨hspace, rfl⟩⟩

end Sys2Proof.Proofs
end

section
/-! SUPPORT. What a core reads after construction, and what it fetches first of a loaded image
(70_reset_and_hazards.md R321, R322). -/

namespace Sys2Proof.Machine

/-! The state after construction (70_reset_and_hazards.md R321). -/

theorem reset_mem_get (a : Nat) : State.reset.mem.get a = fontTable.getD a 0#8 := rfl

theorem reset_v (r : Reg) : State.reset.v r = 0#8 :=
  Vector.getElem_replicate r.isLt

theorem inv_reset : Inv State.reset where
  mem_wf := Memory.wf_nil
  glyphs := fun _ a _ => reset_mem_get a
  pc_bound := fun _ => by decide
  stack := fun _ k _ hk => absurd hk (Nat.not_lt_zero k)

/-! The first instruction of a loaded image (10_state.md R53, 20_memory.md R75). -/

theorem length_encodeBytes_append (i : Instr) (bytes : List Byte) :
    (encodeBytes i ++ bytes).length = bytes.length + 2 := rfl

/-- Where an image that begins with an instruction is written, its first two bytes are that instruction's word. -/
theorem Memory.wordOfBytes_setAll_encodeBytes {m : Memory} (hm : m.wf) {i : Instr} {bytes : List Byte} {a : Nat}
    (h : a + (encodeBytes i ++ bytes).length ≤ memSize) :
    wordOfBytes ((m.setAll a (encodeBytes i ++ bytes)).get a) ((m.setAll a (encodeBytes i ++ bytes)).get (a + 1)) =
      encode i := by
  have hlen := length_encodeBytes_append i bytes
  have hhi := Memory.get_setAll_inside hm h (k := 0) (by omega)
  have hlo := Memory.get_setAll_inside hm h (k := 1) (by omega)
  exact (congrArg₂ wordOfBytes hhi hlo).trans (wordOfBytes_extract (encode i))

end Sys2Proof.Machine
end

section
/-! The obligations of 70_reset_and_hazards.md: the state after construction, the first step of a loaded image, and the
step of a parked core. -/

namespace Sys2Proof.Proofs

open Machine

/-- Settles O51: the image fits above progBase, so the fetch there gives the first instruction's word, which decodes. -/
theorem bootRunsTheFirstInstruction : Obligations.BootRunsTheFirstInstruction := by
  intro bytes i t hlen hwf hload
  have himage := length_encodeBytes_append i bytes
  have hfits : (encodeBytes i ++ bytes).length ≤ progMax := by simp only [progMax]; omega
  obtain rfl := congrArg Prod.snd ((load_of_fits (s := State.reset) rfl hfits).symm.trans hload)
  have hword := Memory.wordOfBytes_setAll_encodeBytes (i := i) (bytes := bytes) (a := progBase) Memory.wf_nil
    (by simp only [progBase, memSize]; omega)
  have hpc : State.reset.pc.toNat ≤ 0xFFE := by decide
  have hd := decodeEncode i hwf
  rw [← hword] at hd
  exact ⟨rfl, step_of_decoded ⟨rfl, rfl⟩ (fetchWord_of_le hpc) hd⟩

/-- Settles O52: a step of a parked core is a tick, which moves neither pc nor the jump in memory. -/
theorem parkedChangesOnlyTimers : Obligations.ParkedChangesOnlyTimers :=
  fun s h => ⟨tick s, step_of_parked h, parked_tick h, decay_toNat s.DT, decay_toNat s.ST, rfl⟩

/-- Settles O14: no byte differs from construction, pc is progBase, and no stack entry is in use. -/
theorem resetInv : Obligations.ResetInv :=
  inv_reset

/-- Settles O50, field by field: an unlisted byte past the glyphs reads 0, and so does every entry of a replicated
vector and every cell of the blank framebuffer. -/
theorem constructionState : Obligations.ConstructionState :=
  ⟨fun a _ => reset_mem_get a, fun _ ha => Memory.initial_of_ge ha, rfl, reset_v, rfl, rfl,
    fun _ hk => Vector.getElem_replicate hk, rfl, rfl, fun _ hk => Vector.getElem_replicate hk,
    fun k _ => Framebuffer.cell_blank k, rfl, rfl, rfl⟩

end Sys2Proof.Proofs
end
